-- ==== Sys2Proof/Word.lean ====
section
/-! DEFINITION. The one machine word: a byte, and the reductions the spec writes over it (00_scope.md R5, R9). -/

namespace Sys2Proof

/-- Every architectural value is a byte: data, addresses, opcodes, operand bytes (R5, R9). -/
abbrev Byte := BitVec 8

/-- `signed(v)`: the two's-complement reading of a byte (R9). -/
def signed (v : Byte) : Int := v.toInt

/-- `u8(n)`: an integer reduced modulo 256 (R9). -/
def u8 (n : Int) : Byte := BitVec.ofInt 8 n

end Sys2Proof
end

