-- ==== Sys2Proof/Syntax.lean ====
section
/-! DEFINITION. The syntax: register and mode names, the decoder's descriptor (30_encoding.md R100) and the instructions,
one constructor per function that has an opcode (30_encoding.md R107; spec/opcode_table.json). -/

namespace Sys2Proof

/-- The three registers an instruction can name as its register operand (10_state.md R21). -/
inductive Reg where
  | a | b | x
  deriving DecidableEq, Repr

/-- The five addressing modes (30_encoding.md R100, R109). -/
inductive Mode where
  | constant | memory | indirect | indexed | indirectIndexed
  deriving DecidableEq, Repr

/-- The two modes a jump can have, with a meaning of their own (20_memory.md R67). -/
inductive JumpMode where
  | memory | indirect
  deriving DecidableEq, Repr

/-- The five jump conditions (30_encoding.md R100; 43_jumps.md R175). -/
inductive Cond where
  | nzero | zero | neg | pos | posNz
  deriving DecidableEq, Repr

/-- What a jump tests: nothing, or a condition on a register. The register and the condition are present or absent
together (30_encoding.md R97, R101; 90_conflicts.md C6). -/
inductive JumpTest where
  | unconditional
  | ifReg (r : Reg) (c : Cond)
  deriving DecidableEq, Repr

/-- The 21 functions (30_encoding.md R100). `rotl` has no opcode (R106). -/
inductive FunctionId where
  | add | sub | load | store | or | and | lneg | jpd | jpi | jmd | jmi | skp0 | skp1 | set0 | set1
  | sftl | sftr | rotl | rotr | noop | halt
  deriving DecidableEq, Repr

/-- The instruction descriptor that `decode` yields for one opcode byte (30_encoding.md R100). -/
structure Descriptor where
  function : FunctionId
  addressingMode : Option Mode
  registerOperand : Option Reg
  bitPosition : Option (Fin 8)
  jumpCondition : Option Cond
  mark : Bool
  deriving DecidableEq, Repr

/-- The instructions: a function with the operands its descriptor and its operand byte `k` give it
(30_encoding.md R101, R103). OR, AND and LNEG have register A implicitly (R102). The shifts and the rotate carry the
place count the opcode names; which counts and registers an opcode can name is checked in WellFormed. -/
inductive Instr where
  | add (r : Reg) (m : Mode) (k : Byte)
  | sub (r : Reg) (m : Mode) (k : Byte)
  | load (r : Reg) (m : Mode) (k : Byte)
  | store (r : Reg) (m : Mode) (k : Byte)
  | or (m : Mode) (k : Byte)
  | and (m : Mode) (k : Byte)
  | lneg (m : Mode) (k : Byte)
  | jpd (t : JumpTest) (k : Byte)
  | jpi (t : JumpTest) (k : Byte)
  | jmd (t : JumpTest) (k : Byte)
  | jmi (t : JumpTest) (k : Byte)
  | skp0 (n : Fin 8) (k : Byte)
  | skp1 (n : Fin 8) (k : Byte)
  | set0 (n : Fin 8) (k : Byte)
  | set1 (n : Fin 8) (k : Byte)
  | sftl (r : Reg) (n : Fin 8)
  | sftr (r : Reg) (n : Fin 8)
  | rotr (r : Reg) (n : Fin 8)
  | noop
  | halt
  deriving DecidableEq, Repr

/-- Why a list of bytes holds no instruction. The decoder is total over opcode bytes (30_encoding.md R93), so the only
reasons are missing bytes; `noInstruction` names a descriptor that stands for no instruction, which the decoder never
yields (R101, R106). -/
inductive DecodeRejection where
  | noBytes
  | operandByteMissing
  | noInstruction (f : FunctionId)
  deriving DecidableEq, Repr

/-- What decoding a list of bytes answers: an instruction and the bytes after it, or a rejection by name. -/
inductive Decoded where
  | instr (i : Instr) (rest : List Byte)
  | rejected (why : DecodeRejection)
  deriving DecidableEq, Repr

end Sys2Proof
end

