-- ==== Sys2Proof/WellFormed.lean ====
section
/-! DEFINITION. Which instructions and which descriptors an opcode can stand for (30_encoding.md R95, R101). -/

namespace Sys2Proof

/-- The shift and rotate family names A or B, never X (30_encoding.md R95; 45_shift_rotate.md R195). -/
def Reg.shiftable (r : Reg) : Bool := r != .x

/-- A place count is 1 to 4 (30_encoding.md R95, R100). -/
def validPlaces (n : Fin 8) : Bool := 1 ≤ n.val && n.val ≤ 4

/-- The instruction is one that some opcode byte and operand byte encode. -/
def Instr.wellFormed : Instr → Bool
  | .add _ _ _ => true
  | .sub _ _ _ => true
  | .load _ _ _ => true
  | .store _ _ _ => true
  | .or _ _ => true
  | .and _ _ => true
  | .lneg _ _ => true
  | .jpd _ _ => true
  | .jpi _ _ => true
  | .jmd _ _ => true
  | .jmi _ _ => true
  | .skp0 _ _ => true
  | .skp1 _ _ => true
  | .set0 _ _ => true
  | .set1 _ _ => true
  | .sftl r n => r.shiftable && validPlaces n
  | .sftr r n => r.shiftable && validPlaces n
  | .rotr r n => r.shiftable && validPlaces n
  | .noop => true
  | .halt => true

/-- A descriptor of the shape of a row of the table of rule R101: which fields are present, and with what values. -/
def Descriptor.consistent (d : Descriptor) : Bool :=
  match d.function with
  | .add | .sub | .load | .store =>
    d.addressingMode.isSome && d.registerOperand.isSome && d.bitPosition.isNone && d.jumpCondition.isNone && !d.mark
  | .or | .and | .lneg =>
    d.addressingMode.isSome && d.registerOperand == some .a && d.bitPosition.isNone && d.jumpCondition.isNone && !d.mark
  | .jpd => d.addressingMode == some .memory && d.bitPosition.isNone &&
    d.jumpCondition.isSome == d.registerOperand.isSome && !d.mark
  | .jpi => d.addressingMode == some .indirect && d.bitPosition.isNone &&
    d.jumpCondition.isSome == d.registerOperand.isSome && !d.mark
  | .jmd => d.addressingMode == some .memory && d.bitPosition.isNone &&
    d.jumpCondition.isSome == d.registerOperand.isSome && d.mark
  | .jmi => d.addressingMode == some .indirect && d.bitPosition.isNone &&
    d.jumpCondition.isSome == d.registerOperand.isSome && d.mark
  | .skp0 | .skp1 | .set0 | .set1 =>
    d.addressingMode == some .memory && d.registerOperand.isNone && d.bitPosition.isSome && d.jumpCondition.isNone &&
      !d.mark
  | .sftl | .sftr | .rotl | .rotr =>
    d.addressingMode.isNone && (d.registerOperand.map Reg.shiftable == some true) &&
      (d.bitPosition.map validPlaces == some true) && d.jumpCondition.isNone && !d.mark
  | .noop | .halt =>
    d.addressingMode.isNone && d.registerOperand.isNone && d.bitPosition.isNone && d.jumpCondition.isNone && !d.mark

end Sys2Proof
end

