-- ==== Sys2Proof/Decode.lean ====
section
/-! DEFINITION. The Opcode Decoder (30_encoding.md R90 to R105), the reading of an instruction from a list of bytes, and
the encoder. -/

namespace Sys2Proof

/-! ### Fields of the opcode byte (R90) -/

/-- `low = b[2:0]` (R90). -/
def lowField (b : Byte) : Nat := (b.extractLsb' 0 3).toNat

/-- `mid = b[5:3]` (R90). -/
def midField (b : Byte) : Nat := (b.extractLsb' 3 3).toNat

/-- `hi = b[7:6]` (R90). -/
def hiField (b : Byte) : Nat := (b.extractLsb' 6 2).toNat

/-- `mid & 3`, opcode bits 4:3: the count of the shift family, the kind of a jump (R95, R97). -/
def countField (b : Byte) : Nat := (b.extractLsb' 3 2).toNat

/-- The register `hi` names: 0 A, 1 B, 2 X, else none (R97, R99). -/
def regOfHi : Nat → Option Reg
  | 0 => some .a
  | 1 => some .b
  | 2 => some .x
  | _ => none

/-- The addressing mode `low` names in the bitwise and ALU families (R98, R109). -/
def modeOfLow : Nat → Option Mode
  | 3 => some .constant
  | 4 => some .memory
  | 5 => some .indirect
  | 6 => some .indexed
  | 7 => some .indirectIndexed
  | _ => none

/-- The condition `low` names in the jump family (R97, R109). -/
def condOfLow : Nat → Option Cond
  | 3 => some .nzero
  | 4 => some .zero
  | 5 => some .neg
  | 6 => some .pos
  | 7 => some .posNz
  | _ => none

/-- The place count: bits 4:3, with 0 remapped to 4 (R95). -/
def placeCount (b : Byte) : Fin 8 := if countField b = 0 then 4 else Fin.ofNat 8 (countField b)

/-! ### The decision tree (R93 to R99) -/

/-- Step 1, `low = 0`: NOOP if opcode bit 7 is set, else HALT (R94). -/
def decodeZeroOperand (b : Byte) : Descriptor :=
  { function := if b.getLsbD 7 then .noop else .halt
    addressingMode := none, registerOperand := none, bitPosition := none, jumpCondition := none, mark := false }

/-- Step 2, `low = 1`, the shift and rotate family; `hi = 3` is SFTR again, never ROTL (R95, R106). -/
def decodeShift (b : Byte) : Descriptor :=
  { function := match hiField b with
      | 0 => .sftr
      | 1 => .rotr
      | 2 => .sftl
      | _ => .sftr
    addressingMode := none
    registerOperand := some (if b.getLsbD 5 then .b else .a)
    bitPosition := some (placeCount b)
    jumpCondition := none, mark := false }

/-- Step 3, `low = 2`, the bit set and skip family (R96). -/
def decodeBitOp (b : Byte) : Descriptor :=
  { function := match hiField b with
      | 0 => .set0
      | 1 => .set1
      | 2 => .skp0
      | _ => .skp1
    addressingMode := some .memory
    registerOperand := none
    bitPosition := some (Fin.ofNat 8 (midField b))
    jumpCondition := none, mark := false }

/-- Step 4, `low` in 3 to 7 and `mid >= 4`, the jump family: with no register there is no condition and `low` is
ignored (R97, D23). -/
def decodeJump (b : Byte) : Descriptor :=
  { function := match countField b with
      | 0 => .jpd
      | 1 => .jpi
      | 2 => .jmd
      | _ => .jmi
    addressingMode := some (if countField b % 2 = 0 then .memory else .indirect)
    registerOperand := regOfHi (hiField b)
    bitPosition := none
    jumpCondition := if (regOfHi (hiField b)).isSome then condOfLow (lowField b) else none
    mark := decide (2 ≤ countField b) }

/-- Step 5, `hi = 3`, the bitwise family; `mid = 1` is a one-byte NOOP; the register is A (R98, R102, D1). -/
def decodeBitwise (b : Byte) : Descriptor :=
  match midField b with
  | 1 =>
    { function := .noop, addressingMode := none, registerOperand := none, bitPosition := none, jumpCondition := none,
      mark := false }
  | n =>
    { function := match n with
        | 0 => .or
        | 2 => .and
        | _ => .lneg
      addressingMode := modeOfLow (lowField b)
      registerOperand := some .a
      bitPosition := none, jumpCondition := none, mark := false }

/-- Step 6, the ALU family (R99). -/
def decodeAlu (b : Byte) : Descriptor :=
  { function := match midField b with
      | 0 => .add
      | 1 => .sub
      | 2 => .load
      | _ => .store
    addressingMode := modeOfLow (lowField b)
    registerOperand := regOfHi (hiField b)
    bitPosition := none, jumpCondition := none, mark := false }

/-- `decode`: total over the 256 opcode bytes, six steps tried in order (R93). -/
def decode (b : Byte) : Descriptor :=
  if lowField b = 0 then decodeZeroOperand b
  else if lowField b = 1 then decodeShift b
  else if lowField b = 2 then decodeBitOp b
  else if 4 ≤ midField b then decodeJump b
  else if hiField b = 3 then decodeBitwise b
  else decodeAlu b

/-- The length of the instruction a descriptor belongs to: two bytes exactly when it has an addressing mode (R91). -/
def Descriptor.length (d : Descriptor) : Nat := if d.addressingMode.isSome then 2 else 1

/-! ### From a descriptor and an operand byte to an instruction -/

/-- What a jump tests: an absent condition is the unconditional case; a condition without a register is none
(R97, R100; 60_exceptions.md R242). -/
def Descriptor.jumpTest (d : Descriptor) : Option JumpTest :=
  match d.jumpCondition, d.registerOperand with
  | none, _ => some .unconditional
  | some c, some r => some (.ifReg r c)
  | some _, none => none

/-- The instruction of a descriptor with operand byte `k`: none where a field or the operand byte that the function
requires is absent (60_exceptions.md R242), and none for ROTL, which is no instruction a program can hold (R106).
DESIGN CHOICE, on descriptors made by hand alone (log 18): R242 names the register and a jump's condition without one; here
every field R101 lists as present is required, the mode of a jump and of a bit operation included. A mode or a mark other
than the one R101 lists for a jump or a bit operation is not looked at: the function decides. -/
def Descriptor.toInstr (d : Descriptor) (k : Option Byte) : Option Instr :=
  match d.function with
  | .add => do return .add (← d.registerOperand) (← d.addressingMode) (← k)
  | .sub => do return .sub (← d.registerOperand) (← d.addressingMode) (← k)
  | .load => do return .load (← d.registerOperand) (← d.addressingMode) (← k)
  | .store => do return .store (← d.registerOperand) (← d.addressingMode) (← k)
  | .or => if d.registerOperand = some .a then do return .or (← d.addressingMode) (← k) else none
  | .and => if d.registerOperand = some .a then do return .and (← d.addressingMode) (← k) else none
  | .lneg => if d.registerOperand = some .a then do return .lneg (← d.addressingMode) (← k) else none
  | .jpd => if d.addressingMode.isSome then do return .jpd (← d.jumpTest) (← k) else none
  | .jpi => if d.addressingMode.isSome then do return .jpi (← d.jumpTest) (← k) else none
  | .jmd => if d.addressingMode.isSome then do return .jmd (← d.jumpTest) (← k) else none
  | .jmi => if d.addressingMode.isSome then do return .jmi (← d.jumpTest) (← k) else none
  | .skp0 => if d.addressingMode.isSome then do return .skp0 (← d.bitPosition) (← k) else none
  | .skp1 => if d.addressingMode.isSome then do return .skp1 (← d.bitPosition) (← k) else none
  | .set0 => if d.addressingMode.isSome then do return .set0 (← d.bitPosition) (← k) else none
  | .set1 => if d.addressingMode.isSome then do return .set1 (← d.bitPosition) (← k) else none
  | .sftl => do return .sftl (← d.registerOperand) (← d.bitPosition)
  | .sftr => do return .sftr (← d.registerOperand) (← d.bitPosition)
  | .rotl => none
  | .rotr => do return .rotr (← d.registerOperand) (← d.bitPosition)
  | .noop => some .noop
  | .halt => some .halt

/-- The instruction as an answer of the byte decoder. -/
def Descriptor.decoded (d : Descriptor) (k : Option Byte) (rest : List Byte) : Decoded :=
  match d.toInstr k with
  | some i => .instr i rest
  | none => .rejected (.noInstruction d.function)

/-- Decoding a list of bytes: the opcode byte at the lower address, then the operand byte when the descriptor has an
addressing mode (20_memory.md R57; R91). -/
def decodeBytes : List Byte → Decoded
  | [] => .rejected .noBytes
  | b :: rest =>
    match (decode b).addressingMode, rest with
    | none, rest => (decode b).decoded none rest
    | some _, [] => .rejected .operandByteMissing
    | some _, k :: rest => (decode b).decoded (some k) rest

/-- The two bytes of a table word of `nbits` bits: the first byte is bits 7..0, the second bits 15..8, and every bit
above `nbits` is zero. -/
def tableBytes (nbits w : Nat) : Byte × Byte :=
  (BitVec.ofNat 8 (w % 2 ^ nbits), BitVec.ofNat 8 (w % 2 ^ nbits / 256))

/-- The instruction the decoder reads from a table word. -/
def decodeTableWord (nbits w : Nat) : Option Instr :=
  match decodeBytes [(tableBytes nbits w).1, (tableBytes nbits w).2] with
  | .instr i _ => some i
  | .rejected _ => none

/-! ### The encoder -/

/-- `b = hi * 64 + mid * 8 + low` (R90). -/
def opcodeByte (hi mid low : Nat) : Byte := BitVec.ofNat 8 (hi * 64 + mid * 8 + low)

/-- `hi` of a register operand (R97, R99). -/
def Reg.hi : Reg → Nat
  | .a => 0
  | .b => 1
  | .x => 2

/-- `low` of an addressing mode (R109). -/
def Mode.low : Mode → Nat
  | .constant => 3
  | .memory => 4
  | .indirect => 5
  | .indexed => 6
  | .indirectIndexed => 7

/-- `low` of a condition (R109). -/
def Cond.low : Cond → Nat
  | .nzero => 3
  | .zero => 4
  | .neg => 5
  | .pos => 6
  | .posNz => 7

/-- The opcode of a jump of kind `j`. An unconditional jump is written with `low = 3`, the first of its five aliases
(R97, R104). Log 10. -/
def jumpOpcode (j : Nat) : JumpTest → Byte
  | .unconditional => opcodeByte 3 (4 + j) 3
  | .ifReg r c => opcodeByte r.hi (4 + j) c.low

/-- The opcode of a shift or rotate: bit 5 is set for B, bits 4:3 hold the count with 4 written as 0 (R95, R195). -/
def shiftOpcode (hi : Nat) (r : Reg) (n : Fin 8) : Byte :=
  opcodeByte hi ((if r = .b then 4 else 0) + n.val % 4) 1

/-- The opcode byte of an instruction, the lowest of its aliases where it has several (R104). Log 10. -/
def Instr.opcode : Instr → Byte
  | .add r m _ => opcodeByte r.hi 0 m.low
  | .sub r m _ => opcodeByte r.hi 1 m.low
  | .load r m _ => opcodeByte r.hi 2 m.low
  | .store r m _ => opcodeByte r.hi 3 m.low
  | .or m _ => opcodeByte 3 0 m.low
  | .and m _ => opcodeByte 3 2 m.low
  | .lneg m _ => opcodeByte 3 3 m.low
  | .jpd t _ => jumpOpcode 0 t
  | .jpi t _ => jumpOpcode 1 t
  | .jmd t _ => jumpOpcode 2 t
  | .jmi t _ => jumpOpcode 3 t
  | .skp0 n _ => opcodeByte 2 n.val 2
  | .skp1 n _ => opcodeByte 3 n.val 2
  | .set0 n _ => opcodeByte 0 n.val 2
  | .set1 n _ => opcodeByte 1 n.val 2
  | .sftl r n => shiftOpcode 2 r n
  | .sftr r n => shiftOpcode 0 r n
  | .rotr r n => shiftOpcode 1 r n
  | .noop => opcodeByte 2 0 0
  | .halt => opcodeByte 0 0 0

/-- The operand byte of an instruction, absent for the one-byte ones (R101, R103). -/
def Instr.operandByte : Instr → Option Byte
  | .add _ _ k => some k
  | .sub _ _ k => some k
  | .load _ _ k => some k
  | .store _ _ k => some k
  | .or _ k => some k
  | .and _ k => some k
  | .lneg _ k => some k
  | .jpd _ k => some k
  | .jpi _ k => some k
  | .jmd _ k => some k
  | .jmi _ k => some k
  | .skp0 _ k => some k
  | .skp1 _ k => some k
  | .set0 _ k => some k
  | .set1 _ k => some k
  | .sftl _ _ => none
  | .sftr _ _ => none
  | .rotr _ _ => none
  | .noop => none
  | .halt => none

/-- The length of an instruction in bytes (R101). -/
def Instr.length (i : Instr) : Nat := if i.operandByte.isSome then 2 else 1

/-- The bytes of an instruction, opcode byte first (20_memory.md R57). -/
def encode (i : Instr) : List Byte := i.opcode :: i.operandByte.toList

end Sys2Proof
end

