-- ==== Sys2Proof/Config.lean ====
section
/-! DEFINITION. What the spec leaves to an implementation (00_scope.md R6; 93_implementation_defined.md U3, U7, U8, U9).
The opaque constants are free: nothing can be proved of their values. -/

namespace Sys2Proof

/-- `ram0`: the content of a RAM cell at power-on, any value per cell, the same at every read until the cell is written
(R6, R56, U8). Free value, log 1. -/
opaque Config.ram0 : Byte → Byte

/-- `latch0`: the address latch at power-on, any byte (R6, R33, U9). Free value, log 2. -/
opaque Config.latch0 : Byte

/-- The remaining-budget counter at power-on, any integer: each burst assigns it before a step reads it (R34, D11).
Free value, log 3. -/
opaque Config.budget0 : Int

/-- `STEP_COST` less one: any natural number, so that the cost itself is any positive integer (R6, R136, U7).
Free value, log 4. -/
opaque Config.stepCostPred : Nat

/-- `STEP_COST`: the fixed positive cost of one executed step (R136). Log 4. -/
def Config.stepCost : Int := (Config.stepCostPred : Int) + 1

/-- The two readings of SFTR on odd negative values (U3). -/
inductive Rounding where
  /-- arithmetic shift: toward minus infinity -/
  | floor
  /-- truncating signed division: toward zero -/
  | trunc
  deriving DecidableEq, Repr

/-- `SFTR_ROUNDING`: the spec decides `floor` (90_conflicts.md C2, 92_eei_decisions.md D2). Log 5. -/
def Config.sftrRounding : Rounding := .floor

end Sys2Proof
end

