-- ==== Sys2Proof/Machine/State.lean ====
section
/-! DEFINITION. The state of the machine, whole (10_state.md R20 to R38), its reset, and the ways a step can stop. -/

namespace Sys2Proof.Machine

/-- The nine registers of the Register Bank (10_state.md R20). `inp` is the register IN. -/
inductive RegName where
  | a | b | x | p | out | oca | ocb | ocx | inp
  deriving DecidableEq, Repr

/-- General RAM as the list of the cells written since power-on, addresses strictly rising (20_memory.md R51, R56).
A cell that is not listed has no byte of its own; the machine reads it as `Config.ram0` (log 1). -/
abbrev Memory := List Host.Cell

/-- One call of a notification sink (60_exceptions.md R267). -/
inductive Notification where
  /-- `notify_out(v)`, to the output-value sink -/
  | out (v : Byte)
  /-- `notify_halt(b)`, to the halt-state sink -/
  | halt (b : Bool)
  deriving DecidableEq, Repr

/-- Everything the spec gives the machine (10_state.md section 1), and the record of the sinks' calls. -/
structure State where
  /-- register A, address 0o000 (R20) -/
  a : Byte
  /-- register B, address 0o001 (R20) -/
  b : Byte
  /-- register X, address 0o002 (R20, R24) -/
  x : Byte
  /-- register P, the program counter, address 0o003 (R25) -/
  p : Byte
  /-- register OUT, address 0o200 (R31) -/
  out : Byte
  /-- register OCA, address 0o201, inert (R30) -/
  oca : Byte
  /-- register OCB, address 0o202, inert (R30) -/
  ocb : Byte
  /-- register OCX, address 0o203, inert (R30) -/
  ocx : Byte
  /-- register IN, address 0o377 (R31) -/
  inp : Byte
  /-- the halt flag: HALTED when true (R32) -/
  halt : Bool
  /-- the front panel's address latch (R33) -/
  latch : Byte
  /-- the remaining-budget counter of the current burst, an integer (R34) -/
  budget : Int
  /-- general RAM (R36) -/
  ram : Memory
  /-- the calls of the sinks so far, newest first (60_exceptions.md R267); the model's own field, log 7 -/
  trace : List Notification
  deriving DecidableEq, Repr

/-- The machine right after power-on and reset: the Register Bank zero, RUNNING (R38, R280). The latch and RAM are
`latch0` and `ram0`, which reset does not write (R281; logs 1, 2), and the budget counter is open as well (D11; log 3);
the record is the model's choice (log 7). -/
def State.reset : State where
  a := 0#8
  b := 0#8
  x := 0#8
  p := 0#8
  out := 0#8
  oca := 0#8
  ocb := 0#8
  ocx := 0#8
  inp := 0#8
  halt := false
  latch := Config.latch0
  budget := Config.budget0
  ram := []
  trace := []

/-- Why the machine stops with a fault. -/
inductive Fault where
  /-- A dispatch arm found a field absent that its function requires (60_exceptions.md R242). Raised by
  `Sys2Proof.Machine.execute` alone, which no descriptor of the decoder reaches (log 18). Safe: it stops, it picks no value. -/
  | internalConsistency (f : FunctionId)
  deriving DecidableEq, Repr

/-- Why the machine refuses an instruction. -/
inductive Refusal where
  /-- An instruction without a meaning. Raised by no arm: every instruction has its meaning. Safe. -/
  | notModelled (mnemonic : String)
  deriving DecidableEq, Repr

end Sys2Proof.Machine
end

