-- ==== Sys2Proof/Machine/Ops.lean ====
section
/-! DEFINITION. The primitives of the pseudocode (00_scope.md R10): the registers, RAM, the overlay decode, the program
counter, the budget, the sinks, reset. THERE IS NO EXCEPTION TO TAKE OR RETURN FROM: the machine has no trap, no
interrupt and no return instruction (60_exceptions.md R240 to R247); the one `raise` of the spec is
`raiseInternalConsistency` (R242). -/

namespace Sys2Proof.Machine

/-! ### Registers -/

/-- `x[r]` (R10). -/
def State.get (s : State) : RegName → Byte
  | .a => s.a
  | .b => s.b
  | .x => s.x
  | .p => s.p
  | .out => s.out
  | .oca => s.oca
  | .ocb => s.ocb
  | .ocx => s.ocx
  | .inp => s.inp

/-- `x[r] <- v` (R10). No register is hardwired and none has a bit that ignores a write (10_state.md R20;
20_memory.md R54). -/
def State.set (s : State) (q : RegName) (v : Byte) : State :=
  match q with
  | .a => { s with a := v }
  | .b => { s with b := v }
  | .x => { s with x := v }
  | .p => { s with p := v }
  | .out => { s with out := v }
  | .oca => { s with oca := v }
  | .ocb => { s with ocb := v }
  | .ocx => { s with ocx := v }
  | .inp => { s with inp := v }

/-- The register of the bank that a register operand names (10_state.md R21). -/
def bankReg : Reg → RegName
  | .a => .a
  | .b => .b
  | .x => .x

/-- `x[r]` for a register operand. -/
def State.reg (s : State) (r : Reg) : Byte := s.get (bankReg r)

/-- `x[r] <- v` for a register operand. -/
def State.setReg (s : State) (r : Reg) (v : Byte) : State := s.set (bankReg r) v

/-! ### RAM behind the memory port -/

/-- The byte a RAM list holds at an address, none where nothing has been written. -/
def Memory.lookup : Memory → Nat → Option Byte
  | [], _ => none
  | (b, v) :: m, a => if a = b then some v else Memory.lookup m a

/-- The RAM list with one cell written, in canonical form again: one entry per address, addresses rising. -/
def Memory.write : Memory → Nat → Byte → Memory
  | [], a, v => [(a, v)]
  | (b, w) :: m, a, v =>
    if a < b then (a, v) :: (b, w) :: m
    else if a = b then (a, v) :: m
    else (b, w) :: Memory.write m a v

/-- The addresses of general RAM: the bands 0o004 to 0o177 and 0o204 to 0o376 (10_state.md R36; 20_memory.md R51). -/
def isRamAddress (a : Nat) : Bool := (4 ≤ a && a ≤ 127) || (132 ≤ a && a ≤ 254)

/-- The canonical form: addresses strictly rising, every one of them a RAM address. An unlisted cell has no byte of its
own, so no entry equals what an unlisted one holds (log 1). -/
abbrev Memory.wf (m : Memory) : Prop :=
  m.Pairwise (fun c d => c.1 < d.1) ∧ ∀ c ∈ m, isRamAddress c.1 = true

/-- `read_byte(a)` of the memory collaborator: the byte last written, or the power-on content (20_memory.md R56). -/
def readByte (s : State) (a : Byte) : Byte := (Memory.lookup s.ram a.toNat).getD (Config.ram0 a)

/-- `write_byte(a, v)` of the memory collaborator: plain storage (20_memory.md R56, D5). -/
def writeByte (s : State) (a : Byte) (v : Byte) : State := { s with ram := Memory.write s.ram a.toNat v }

/-! ### The overlay decode -/

/-- `RegAt(a)` (20_memory.md R52). -/
def regAt (a : Byte) : Option RegName :=
  match a.toNat with
  | 0 => some .a
  | 1 => some .b
  | 2 => some .x
  | 3 => some .p
  | 128 => some .out
  | 129 => some .oca
  | 130 => some .ocb
  | 131 => some .ocx
  | 255 => some .inp
  | _ => none

/-- `MemRead(a, 1)` (20_memory.md R53): the overlay is checked before RAM. -/
def memRead (s : State) (a : Byte) : Byte :=
  match regAt a with
  | some q => s.get q
  | none => readByte s a

/-- `MemWrite(a, 1, v)` (20_memory.md R54). -/
def memWrite (s : State) (a : Byte) (v : Byte) : State :=
  match regAt a with
  | some q => s.set q v
  | none => writeByte s a v

/-! ### The parts of a step -/

/-- `pc <- u8(pc + n)` (10_state.md R28). -/
def advance (s : State) (n : Byte) : State := s.set .p (s.get .p + n)

/-- `budget <- budget - STEP_COST` (40_engine_step.md R136). -/
def charge (s : State) : State := { s with budget := s.budget - Config.stepCost }

/-- `notify_out(x[OUT])`, then `notify_halt(halt)` (40_engine_step.md R137; 60_exceptions.md R267). -/
def notify (s : State) : State := { s with trace := .halt s.halt :: .out (s.get .out) :: s.trace }

/-- The internal-consistency fault (60_exceptions.md R242): it saves no state and transfers control nowhere. -/
def raiseInternalConsistency (f : FunctionId) : Host.Outcome State Fault Refusal := .fault (.internalConsistency f)

/-- Continue with a next state; a fault and a refusal stay as they are. -/
def onNext (o : Host.Outcome State Fault Refusal) (f : State → State) : Host.Outcome State Fault Refusal :=
  match o with
  | .next s => .next (f s)
  | .fault r => .fault r
  | .refused r => .refused r

/-! ### Reset -/

/-- `reset()` (70_reset_and_hazards.md R280): the nine registers and the halt flag. RAM, the latch and the budget counter
stay, and no sink is called (R281, D24). -/
def machineReset (s : State) : State :=
  { s with a := 0#8, b := 0#8, x := 0#8, p := 0#8, out := 0#8, oca := 0#8, ocb := 0#8, ocx := 0#8, inp := 0#8,
           halt := false }

end Sys2Proof.Machine
end

