-- ==== Sys2Proof/Machine/Operands.lean ====
section
/-! DEFINITION. The Addressing-Mode Resolver and the separate jump addressing (20_memory.md R65 to R72). -/

namespace Sys2Proof.Machine

/-- The effective address of a mode and an operand byte; none for CONSTANT, which has no cell. In INDIRECT_INDEXED the
index is added after the indirection; every sum wraps modulo 256 (R65, R66, R68). -/
def effAddr (s : State) (m : Mode) (k : Byte) : Option Byte :=
  match m with
  | .constant => none
  | .memory => some k
  | .indirect => some (memRead s k)
  | .indexed => some (k + s.get .x)
  | .indirectIndexed => some (memRead s k + s.get .x)

/-- `ResolveRead(mode, k)` (R65). -/
def resolveRead (s : State) (m : Mode) (k : Byte) : Byte :=
  match effAddr s m k with
  | some a => memRead s a
  | none => k

/-- `ResolveWrite(mode, k, v)`: a CONSTANT write does nothing (R66). -/
def resolveWrite (s : State) (m : Mode) (k : Byte) (v : Byte) : State :=
  match effAddr s m k with
  | some a => memWrite s a v
  | none => s

/-- `JumpTarget(mode, k)`: MEMORY is the operand byte itself, INDIRECT a single dereference (R67). -/
def jumpTarget (s : State) (m : JumpMode) (k : Byte) : Byte :=
  match m with
  | .memory => k
  | .indirect => memRead s k

end Sys2Proof.Machine
end

