-- ==== Sys2Proof/Machine/Alu.lean ====
section
/-! DEFINITION. The ALU family: ADD, SUB, LOAD, STORE (41_alu.md R149 to R154). No flag, no exception. P has already been
advanced past the instruction when a meaning runs (10_state.md R26). -/

namespace Sys2Proof.Machine

/-- ADD (R150): the operand is resolved before the register is written. -/
def execAdd (r : Reg) (m : Mode) (k : Byte) (s : State) : Host.Outcome State Fault Refusal :=
  .next (s.setReg r (s.reg r + resolveRead s m k))

/-- SUB (R151): register less operand. -/
def execSub (r : Reg) (m : Mode) (k : Byte) (s : State) : Host.Outcome State Fault Refusal :=
  .next (s.setReg r (s.reg r - resolveRead s m k))

/-- LOAD (R152). -/
def execLoad (r : Reg) (m : Mode) (k : Byte) (s : State) : Host.Outcome State Fault Refusal :=
  .next (s.setReg r (resolveRead s m k))

/-- STORE (R153). -/
def execStore (r : Reg) (m : Mode) (k : Byte) (s : State) : Host.Outcome State Fault Refusal :=
  .next (resolveWrite s m k (s.reg r))

end Sys2Proof.Machine
end

