-- ==== Sys2Proof/Machine/Flags.lean ====
section
/-! DEFINITION. THE MACHINE HAS NO FLAGS: no instruction sets or reads one (10_state.md R29), and OCA, OCB and OCX are
inert (R30). What stands here is what the machine tests instead: the sign and zero of a register (43_jumps.md R175) and
one bit of a cell (44_bit_skip_set.md R185), and the setting and clearing of that bit. -/

namespace Sys2Proof.Machine

/-- `Holds(cond, v)` on the signed value of a byte (43_jumps.md R175). -/
def holds (c : Cond) (v : Byte) : Bool :=
  match c with
  | .nzero => decide (signed v ≠ 0)
  | .zero => decide (signed v = 0)
  | .neg => decide (signed v < 0)
  | .pos => decide (0 ≤ signed v)
  | .posNz => decide (0 < signed v)

/-- Whether a jump proceeds: an unconditional jump always does (43_jumps.md R170). -/
def jumpTaken (s : State) (t : JumpTest) : Bool :=
  match t with
  | .unconditional => true
  | .ifReg r c => holds c (s.reg r)

/-- `v[n]`, bit 0 the least significant (00_scope.md R7, D12). -/
def bitOf (v : Byte) (n : Fin 8) : Bool := v.getLsbD n.val

/-- `1 << n`. -/
def bitMask (n : Fin 8) : Byte := 1#8 <<< n.val

/-- `v & ~(1 << n)` (44_bit_skip_set.md R188). -/
def clearBit (v : Byte) (n : Fin 8) : Byte := v &&& ~~~(bitMask n)

/-- `v | (1 << n)` (44_bit_skip_set.md R189; 60_exceptions.md R256). -/
def setBit (v : Byte) (n : Fin 8) : Byte := v ||| bitMask n

end Sys2Proof.Machine
end

