-- ==== Sys2Proof/Machine/BitSkipSet.lean ====
section
/-! DEFINITION. The bit family: SKP_0, SKP_1, SET_0, SET_1 (44_bit_skip_set.md R185 to R189). The cell is `mem[k]`. -/

namespace Sys2Proof.Machine

/-- Skip two bytes, whatever follows, when the tested bit has the wanted value (R186, R187; 70_reset_and_hazards.md
R285). -/
def skipIf (s : State) (wanted : Bool) (n : Fin 8) (k : Byte) : State :=
  if bitOf (memRead s k) n = wanted then advance s 2#8 else s

/-- SKP_0 (R186). -/
def execSkp0 (n : Fin 8) (k : Byte) (s : State) : Host.Outcome State Fault Refusal :=
  .next (skipIf s false n k)

/-- SKP_1 (R187). -/
def execSkp1 (n : Fin 8) (k : Byte) (s : State) : Host.Outcome State Fault Refusal :=
  .next (skipIf s true n k)

/-- SET_0 (R188): the cell is read, then written back with the bit 0. -/
def execSet0 (n : Fin 8) (k : Byte) (s : State) : Host.Outcome State Fault Refusal :=
  .next (memWrite s k (clearBit (memRead s k) n))

/-- SET_1 (R189): the cell is read, then written back with the bit 1. -/
def execSet1 (n : Fin 8) (k : Byte) (s : State) : Host.Outcome State Fault Refusal :=
  .next (memWrite s k (setBit (memRead s k) n))

end Sys2Proof.Machine
end

