-- ==== Sys2Proof/Machine/Bitwise.lean ====
section
/-! DEFINITION. The bitwise family: OR, AND, LNEG, on register A always (42_bitwise.md R160 to R163; D1). -/

namespace Sys2Proof.Machine

/-- OR (R161). -/
def execOr (m : Mode) (k : Byte) (s : State) : Host.Outcome State Fault Refusal :=
  .next (s.setReg .a (s.reg .a ||| resolveRead s m k))

/-- AND (R162). -/
def execAnd (m : Mode) (k : Byte) (s : State) : Host.Outcome State Fault Refusal :=
  .next (s.setReg .a (s.reg .a &&& resolveRead s m k))

/-- The value LNEG loads: the signed value negated, -128 left as it is (R163). -/
def negated (v : Byte) : Byte := if signed v = -128 then v else u8 (-(signed v))

/-- LNEG (R163): a load of the negated operand. -/
def execLneg (m : Mode) (k : Byte) (s : State) : Host.Outcome State Fault Refusal :=
  .next (s.setReg .a (negated (resolveRead s m k)))

end Sys2Proof.Machine
end

