-- ==== Sys2Proof/Machine/Jumps.lean ====
section
/-! DEFINITION. The jump family: JPD, JPI, JMD, JMI (43_jumps.md R170 to R177). -/

namespace Sys2Proof.Machine

/-- The common algorithm (R170): a jump not taken does nothing; a marking jump writes the return address, which is the
advanced P, to the target cell and goes to the cell after it; the target is taken before the mark is written (R174). -/
def jump (s : State) (t : JumpTest) (m : JumpMode) (mark : Bool) (k : Byte) : State :=
  if jumpTaken s t then
    if mark then (memWrite s (jumpTarget s m k) (s.get .p)).set .p (jumpTarget s m k + 1#8)
    else s.set .p (jumpTarget s m k)
  else s

/-- JPD (R171). -/
def execJpd (t : JumpTest) (k : Byte) (s : State) : Host.Outcome State Fault Refusal :=
  .next (jump s t .memory false k)

/-- JPI (R172). -/
def execJpi (t : JumpTest) (k : Byte) (s : State) : Host.Outcome State Fault Refusal :=
  .next (jump s t .indirect false k)

/-- JMD (R173). -/
def execJmd (t : JumpTest) (k : Byte) (s : State) : Host.Outcome State Fault Refusal :=
  .next (jump s t .memory true k)

/-- JMI (R174). -/
def execJmi (t : JumpTest) (k : Byte) (s : State) : Host.Outcome State Fault Refusal :=
  .next (jump s t .indirect true k)

end Sys2Proof.Machine
end

