-- ==== Sys2Proof/Machine/ShiftRotate.lean ====
section
/-! DEFINITION. The shift and rotate family: SFTL, SFTR, ROTL, ROTR (45_shift_rotate.md R195 to R199). ROTL has no opcode
(R198): its meaning is reached by the dispatch over descriptors alone. -/

namespace Sys2Proof.Machine

/-- SFTL's result (R196). -/
def shiftedLeft (v : Byte) (n : Fin 8) : Byte := v <<< n.val

/-- SFTR's result under either reading (R197, U3): one place, whatever the count. -/
def shiftedRight (rounding : Rounding) (v : Byte) : Byte :=
  match rounding with
  | .floor => v.sshiftRight 1
  | .trunc => u8 ((signed v).tdiv 2)

/-- ROTL's result (R198). -/
def rotatedLeft (v : Byte) (n : Fin 8) : Byte := (v <<< n.val) ||| (v >>> (8 - n.val))

/-- ROTR's result (R199). -/
def rotatedRight (v : Byte) (n : Fin 8) : Byte := (v >>> n.val) ||| (v <<< (8 - n.val))

/-- SFTL (R196). -/
def execSftl (r : Reg) (n : Fin 8) (s : State) : Host.Outcome State Fault Refusal :=
  .next (s.setReg r (shiftedLeft (s.reg r) n))

/-- SFTR (R197): the place count is decoded and not used (U5). -/
def execSftr (r : Reg) (_n : Fin 8) (s : State) : Host.Outcome State Fault Refusal :=
  .next (s.setReg r (shiftedRight Config.sftrRounding (s.reg r)))

/-- ROTL (R198), a dispatch arm that no opcode selects (30_encoding.md R106; log 8). -/
def execRotl (r : Reg) (n : Fin 8) (s : State) : Host.Outcome State Fault Refusal :=
  .next (s.setReg r (rotatedLeft (s.reg r) n))

/-- ROTR (R199). -/
def execRotr (r : Reg) (n : Fin 8) (s : State) : Host.Outcome State Fault Refusal :=
  .next (s.setReg r (rotatedRight (s.reg r) n))

end Sys2Proof.Machine
end

