-- ==== Sys2Proof/Machine/System.lean ====
section
/-! DEFINITION. NOOP and HALT; there are no other system instructions (46_noop_halt.md R205 to R207). -/

namespace Sys2Proof.Machine

/-- NOOP (R205): no effect beyond the step's own advance, charge and notifications. -/
def execNoop (s : State) : Host.Outcome State Fault Refusal := .next s

/-- HALT (R206): the halt flag is set; P already points at the byte after the HALT. -/
def execHalt (s : State) : Host.Outcome State Fault Refusal := .next { s with halt := true }

end Sys2Proof.Machine
end

