-- ==== Sys2Proof/Machine/Dispatch.lean ====
section
/-! DEFINITION. The dispatch over instructions (40_engine_step.md R135): one arm per constructor of Instr. -/

namespace Sys2Proof.Machine

def exec (i : Instr) (s : State) : Host.Outcome State Fault Refusal :=
  match i with
  | .add r m k => Sys2Proof.Machine.execAdd r m k s
  | .sub r m k => Sys2Proof.Machine.execSub r m k s
  | .load r m k => Sys2Proof.Machine.execLoad r m k s
  | .store r m k => Sys2Proof.Machine.execStore r m k s
  | .or m k => Sys2Proof.Machine.execOr m k s
  | .and m k => Sys2Proof.Machine.execAnd m k s
  | .lneg m k => Sys2Proof.Machine.execLneg m k s
  | .jpd t k => Sys2Proof.Machine.execJpd t k s
  | .jpi t k => Sys2Proof.Machine.execJpi t k s
  | .jmd t k => Sys2Proof.Machine.execJmd t k s
  | .jmi t k => Sys2Proof.Machine.execJmi t k s
  | .skp0 n k => Sys2Proof.Machine.execSkp0 n k s
  | .skp1 n k => Sys2Proof.Machine.execSkp1 n k s
  | .set0 n k => Sys2Proof.Machine.execSet0 n k s
  | .set1 n k => Sys2Proof.Machine.execSet1 n k s
  | .sftl r n => Sys2Proof.Machine.execSftl r n s
  | .sftr r n => Sys2Proof.Machine.execSftr r n s
  | .rotr r n => Sys2Proof.Machine.execRotr r n s
  | .noop => Sys2Proof.Machine.execNoop s
  | .halt => Sys2Proof.Machine.execHalt s

end Sys2Proof.Machine
end

