-- ==== Sys2Proof/Machine/Engine.lean ====
section
/-! DEFINITION. The Execution Engine: the fetch, the dispatch over descriptors with the internal-consistency fault, the
executed and the halted step (40_engine_step.md R130 to R140), and the placing of a word where the next fetch reads. -/

namespace Sys2Proof.Machine

/-- The operand fetch (R134): when, and only when, the descriptor has an addressing mode, the operand byte at the
already advanced P, and P advanced again. -/
def fetchOperand (d : Descriptor) (s : State) : Descriptor × Option Byte × State :=
  match d.addressingMode with
  | some _ => (d, some (memRead s (s.get .p)), advance s 1#8)
  | none => (d, none, s)

/-- The fetch of a step (R132, R133): the opcode byte at P through the overlay, P advanced by one, the descriptor, the
operand fetch. -/
def fetch (s : State) : Descriptor × Option Byte × State :=
  fetchOperand (decode (memRead s (s.get .p))) (advance s 1#8)

/-- `execute(d, k)` (R135): the match over the 21 functions. ROTL, which is no instruction, has its own arm; for the
other twenty the descriptor gives an instruction. A required field absent raises the internal-consistency fault
(60_exceptions.md R242). -/
def execute (d : Descriptor) (k : Option Byte) (s : State) : Host.Outcome State Fault Refusal :=
  if d.function = .rotl then
    match d.registerOperand, d.bitPosition with
    | some r, some n => execRotl r n s
    | _, _ => raiseInternalConsistency .rotl
  else
    match d.toInstr k with
    | some i => exec i s
    | none => raiseInternalConsistency d.function

/-- What every executed step does after its instruction: charge, then notify both sinks (R136, R137). -/
def finishStep (s : State) : State := notify (charge s)

/-- A step taken while RUNNING (R132). -/
def executedStep (s : State) : Host.Outcome State Fault Refusal :=
  match fetch s with
  | (d, k, t) => onNext (execute d k t) finishStep

/-- A step taken while HALTED: the rest of the budget is consumed and nothing else changes (R131, D7). -/
def haltedStep (s : State) : Host.Outcome State Fault Refusal := .next { s with budget := 0 }

/-- One step, by the state of the engine (R130). -/
def engineStep (s : State) : Host.Outcome State Fault Refusal := if s.halt then haltedStep s else executedStep s

/-- The instruction the machine fetches next: what the two bytes at P decode to. The second byte is read with P already
advanced, as the step reads it (R134). -/
def nextInstr (s : State) : Option Instr :=
  match decodeBytes [memRead s (s.get .p), memRead (advance s 1#8) (s.get .p + 1#8)] with
  | .instr i _ => some i
  | .rejected _ => none

/-- Where a word is placed so that the next fetch reads both its bytes: P itself, but 4 when P is 2 or 3, since a byte
that would lie at address 3 is P and cannot be chosen freely (R134). Log 9. -/
def fetchPlace (p : Byte) : Byte := if p = 2#8 ∨ p = 3#8 then 4#8 else p

/-- The state with a table word placed where the next step fetches, the engine RUNNING. Log 9. -/
def placeFetchWord (s : State) (nbits w : Nat) : State :=
  memWrite
    (memWrite ({ s with halt := false }.set .p (fetchPlace (s.get .p))) (fetchPlace (s.get .p)) (tableBytes nbits w).1)
    (fetchPlace (s.get .p) + 1#8) (tableBytes nbits w).2

end Sys2Proof.Machine
end

