-- ==== Sys2Proof/Machine/Step.lean ====
section
/-! DEFINITION. The step of the machine and the host's way to place an instruction for it. -/

namespace Sys2Proof.Machine

/-- One step (40_engine_step.md R130 to R132). -/
def step (s : State) : Host.Outcome State Fault Refusal := engineStep s

/-- The state with a table word stored where `step` fetches its next instruction. Log 9. -/
def State.withFetchWord (s : State) (nbits w : Nat) : State := placeFetchWord s nbits w

end Sys2Proof.Machine
end

