-- ==== Sys2Proof/Machine/Disassembler.lean ====
section
/-! DEFINITION. The Disassembler (50_disassembler.md R210 to R221): pure, over a byte fetcher its caller supplies. -/

namespace Sys2Proof.Machine

/-- The identifier of a register (10_state.md R20). -/
def registerText : RegName → String
  | .a => "A"
  | .b => "B"
  | .x => "X"
  | .p => "P"
  | .out => "OUT"
  | .oca => "OCA"
  | .ocb => "OCB"
  | .ocx => "OCX"
  | .inp => "IN"

/-- `MNEMONIC`, as the spec decides it: the function identifiers (R215, D15). Log 17. -/
def mnemonicText : FunctionId → String
  | .add => "ADD"
  | .sub => "SUB"
  | .load => "LOAD"
  | .store => "STORE"
  | .or => "OR"
  | .and => "AND"
  | .lneg => "LNEG"
  | .jpd => "JPD"
  | .jpi => "JPI"
  | .jmd => "JMD"
  | .jmi => "JMI"
  | .skp0 => "SKP_0"
  | .skp1 => "SKP_1"
  | .set0 => "SET_0"
  | .set1 => "SET_1"
  | .sftl => "SFTL"
  | .sftr => "SFTR"
  | .rotl => "ROTL"
  | .rotr => "ROTR"
  | .noop => "NOOP"
  | .halt => "HALT"

/-- One digit, 0 to 7. -/
def octalDigit (n : Nat) : String :=
  match n with
  | 0 => "0"
  | 1 => "1"
  | 2 => "2"
  | 3 => "3"
  | 4 => "4"
  | 5 => "5"
  | 6 => "6"
  | _ => "7"

/-- `NNN`: three octal digits with leading zeros (R219). -/
def octalText (k : Byte) : String :=
  octalDigit (k.toNat / 64) ++ octalDigit (k.toNat / 8 % 8) ++ octalDigit (k.toNat % 8)

/-- `<condition-symbol>` (R217). -/
def conditionText : Option Cond → String
  | none => "UNC"
  | some .nzero => "!=0"
  | some .zero => "=0"
  | some .neg => "<0"
  | some .pos => ">=0"
  | some .posNz => ">0"

/-- `<operand>` (R219): a register's name replaces the number in MEMORY mode only. -/
def operandText (m : Mode) (k : Byte) : String :=
  match m with
  | .constant => "#" ++ octalText k
  | .memory =>
    match regAt k with
    | some q => registerText q
    | none => octalText k
  | .indirect => "(" ++ octalText k ++ ")"
  | .indexed => octalText k ++ ", X"
  | .indirectIndexed => "(" ++ octalText k ++ "), X"

/-- An item of a template preceded by its space, or nothing when the item is absent (R214). -/
def spaced : Option String → String
  | some t => " " ++ t
  | none => ""

/-- The text of the descriptor's register operand (R216). -/
def descriptorRegText (d : Descriptor) : Option String := d.registerOperand.map fun r => registerText (bankReg r)

/-- The text of the operand, present when the descriptor has a mode and the operand byte was fetched. -/
def descriptorOperandText (d : Descriptor) (k : Option Byte) : Option String :=
  d.addressingMode.bind fun m => k.map fun v => operandText m v

/-- The text of the bit position or place count: one decimal digit (R218). -/
def descriptorBitText (d : Descriptor) : String :=
  match d.bitPosition with
  | some n => octalDigit n.val
  | none => ""

/-- `Render(d, k)`: the template of the function's family (R214). -/
def render (mnemonic : FunctionId → String) (d : Descriptor) (k : Option Byte) : String :=
  match d.function with
  | .add | .sub | .load =>
    mnemonic d.function ++ spaced (descriptorRegText d) ++ spaced (descriptorOperandText d k)
  | .store =>
    mnemonic d.function ++ spaced (descriptorOperandText d k) ++ spaced (descriptorRegText d)
  | .or | .and | .lneg => mnemonic d.function ++ spaced (descriptorOperandText d k)
  | .jpd | .jpi | .jmd | .jmi =>
    mnemonic d.function ++ spaced (descriptorRegText d) ++ spaced (some (conditionText d.jumpCondition)) ++
      spaced (descriptorOperandText d k)
  | .skp0 | .skp1 | .set0 | .set1 =>
    mnemonic d.function ++ " b" ++ descriptorBitText d ++ spaced (descriptorOperandText d k)
  | .sftl | .sftr | .rotl | .rotr => mnemonic d.function ++ descriptorBitText d
  | .noop | .halt => mnemonic d.function

/-- `disassemble(address, byte_fetcher)` with a table of mnemonics (R211 to R213, R215): a register's cell is never
disassembled; the operand byte is fetched at `u8(address + 1)`. -/
def disassembleWith (mnemonic : FunctionId → String) (address : Byte) (fetcher : Byte → Byte) : String × Nat :=
  match regAt address with
  | some q => ("REG" ++ registerText q, 1)
  | none =>
    if (decode (fetcher address)).addressingMode.isSome then
      (render mnemonic (decode (fetcher address)) (some (fetcher (address + 1#8))), 2)
    else (render mnemonic (decode (fetcher address)) none, 1)

/-- `disassemble(address, byte_fetcher)` with the spec's mnemonics (R210, R215). -/
def disassemble (address : Byte) (fetcher : Byte → Byte) : String × Nat := disassembleWith mnemonicText address fetcher

/-- A listing of `n` lines by the linear walk (R221). DESIGN CHOICE: R221 does not say what the walk does past address 255;
here it goes on at `u8(address + bytes_consumed)`, and it ends by the number of lines alone. Log 20. -/
def listing : Nat → Byte → (Byte → Byte) → List (Byte × String)
  | 0, _, _ => []
  | n + 1, address, fetcher =>
    (address, (disassemble address fetcher).1) ::
      listing n (address + BitVec.ofNat 8 (disassemble address fetcher).2) fetcher

end Sys2Proof.Machine
end

