-- ==== Sys2Proof/Machine/Burst.lean ====
section
/-! DEFINITION. The burst loop (40_engine_step.md R138). -/

namespace Sys2Proof.Machine

/-- The loop `while budget > 0: step()`, at most `fuel` times round. -/
def burstLoop : Nat → State → Host.Outcome State Fault Refusal
  | 0, s => .next s
  | fuel + 1, s =>
    if 0 < s.budget then
      match step s with
      | .next t => burstLoop fuel t
      | .fault r => .fault r
      | .refused r => .refused r
    else .next s

/-- `run(n)` (R138). Every step takes at least 1 from the budget or sets it to 0, so `n` rounds are enough (log 14). -/
def burst (n : Int) (s : State) : Host.Outcome State Fault Refusal := burstLoop n.toNat { s with budget := n }

end Sys2Proof.Machine
end

