-- ==== Sys2Proof/Machine/FrontPanel.lean ====
section
/-! DEFINITION. The front-panel operations and everything else the host can do to the machine between two steps
(60_exceptions.md R253 to R268; 40_engine_step.md R139). -/

namespace Sys2Proof.Machine

/-- The nine calls of the front panel (R255, R266). The argument of `set_input_bit` is 0 to 7 (R256, D10, U11). -/
inductive PanelCall where
  | setInputBit (i : Fin 8)
  | clearInput
  | getInput
  | setAddress
  | displayAddress
  | storeValue
  | readValue
  | setHalt (b : Bool)
  | getHalt
  deriving DecidableEq, Repr

/-- What a call returns: nothing, a byte (`get_input`) or a Boolean (`get_halt`). -/
inductive PanelReply where
  | done
  | byte (v : Byte)
  | flag (b : Bool)
  deriving DecidableEq, Repr

/-- `set_input_bit(i)` (R256). -/
def setInputBit (i : Fin 8) (s : State) : State := s.set .inp (setBit (s.get .inp) i)

/-- `clear_input()` (R257). -/
def clearInput (s : State) : State := s.set .inp 0#8

/-- `get_input()` (R258). -/
def getInput (s : State) : Byte := s.get .inp

/-- `set_address()` (R259). -/
def setAddress (s : State) : State := { s with latch := s.get .inp }

/-- `display_address()` (R260): no sink is called (D9). -/
def displayAddress (s : State) : State := s.set .out s.latch

/-- `store_value()` (R261): through the overlay, then the latch moves on modulo 256. -/
def storeValue (s : State) : State :=
  { memWrite s s.latch (s.get .inp) with latch := s.latch + 1#8 }

/-- `read_value()` (R262): no sink is called (D9). -/
def readValue (s : State) : State := s.set .out (memRead s s.latch)

/-- `set_halt(b)` (R263): both sinks are called, even when the flag does not change (D8). -/
def setHalt (b : Bool) (s : State) : State := notify { s with halt := b }

/-- `get_halt()` (R264). -/
def getHalt (s : State) : Bool := s.halt

/-- One front-panel call: what it returns and the state after it (R255). -/
def panelCall (c : PanelCall) (s : State) : PanelReply × State :=
  match c with
  | .setInputBit i => (.done, setInputBit i s)
  | .clearInput => (.done, clearInput s)
  | .getInput => (.byte (getInput s), s)
  | .setAddress => (.done, setAddress s)
  | .displayAddress => (.done, displayAddress s)
  | .storeValue => (.done, storeValue s)
  | .readValue => (.done, readValue s)
  | .setHalt b => (.done, setHalt b s)
  | .getHalt => (.flag (getHalt s), s)

/-- The events of the machine, each indivisible (40_engine_step.md R139; 20_memory.md R75). -/
inductive HostEvent where
  | step
  | burst (n : Int)
  | reset
  | panel (c : PanelCall)
  deriving DecidableEq, Repr

/-- What an event does to the machine (R253). -/
def applyEvent (e : HostEvent) (s : State) : Host.Outcome State Fault Refusal :=
  match e with
  | .step => step s
  | .burst n => burst n s
  | .reset => .next (machineReset s)
  | .panel c => .next (panelCall c s).2

/-- A sequence of events, stopping at the first fault or refusal. -/
def applyEvents : List HostEvent → State → Host.Outcome State Fault Refusal
  | [], s => .next s
  | e :: es, s =>
    match applyEvent e s with
    | .next t => applyEvents es t
    | .fault r => .fault r
    | .refused r => .refused r

/-- The calls that enter a byte into IN: clear it, then set each bit that is 1 (R265). -/
def enterByteCalls (v : Byte) : List PanelCall :=
  .clearInput :: ((List.finRange 8).filter (bitOf v)).map .setInputBit

/-- The state after a list of front-panel calls. -/
def panelCalls (cs : List PanelCall) (s : State) : State := cs.foldl (fun t c => (panelCall c t).2) s

/-- The calls that set the latch to an address (R265). -/
def setLatchCalls (a : Byte) : List PanelCall := enterByteCalls a ++ [.setAddress]

/-- The calls that deposit bytes from the latch on (R265). -/
def depositCalls : List Byte → List PanelCall
  | [] => []
  | v :: vs => enterByteCalls v ++ .storeValue :: depositCalls vs

end Sys2Proof.Machine
end

