-- ==== Sys2Proof/Machine/Accesses.lean ====
section
/-! DEFINITION. The accesses a step makes, in order (20_memory.md R59, R71), and which of them are calls of the memory
port (60_exceptions.md R254; 20_memory.md R55). -/

namespace Sys2Proof.Machine

/-- One access of one byte. -/
inductive Access where
  | read (a : Byte)
  | write (a : Byte)
  deriving DecidableEq, Repr

/-- The read of the pointer cell, in the two modes that have one (R71). -/
def pointerAccesses (m : Mode) (k : Byte) : List Access :=
  match m with
  | .constant => []
  | .memory => []
  | .indirect => [.read k]
  | .indexed => []
  | .indirectIndexed => [.read k]

/-- `ResolveRead` (R71). -/
def resolveReadAccesses (s : State) (m : Mode) (k : Byte) : List Access :=
  pointerAccesses m k ++ ((effAddr s m k).map Access.read).toList

/-- `ResolveWrite` (R71). -/
def resolveWriteAccesses (s : State) (m : Mode) (k : Byte) : List Access :=
  pointerAccesses m k ++ ((effAddr s m k).map Access.write).toList

/-- A jump (R71; 43_jumps.md R170): none when it is not taken. -/
def jumpAccesses (s : State) (t : JumpTest) (m : JumpMode) (mark : Bool) (k : Byte) : List Access :=
  if jumpTaken s t then
    (match m with
      | .memory => []
      | .indirect => [.read k]) ++ (if mark then [.write (jumpTarget s m k)] else [])
  else []

/-- The accesses of an instruction's own effect, P already past it (R71). -/
def execAccesses (i : Instr) (s : State) : List Access :=
  match i with
  | .add _ m k => resolveReadAccesses s m k
  | .sub _ m k => resolveReadAccesses s m k
  | .load _ m k => resolveReadAccesses s m k
  | .store _ m k => resolveWriteAccesses s m k
  | .or m k => resolveReadAccesses s m k
  | .and m k => resolveReadAccesses s m k
  | .lneg m k => resolveReadAccesses s m k
  | .jpd t k => jumpAccesses s t .memory false k
  | .jpi t k => jumpAccesses s t .indirect false k
  | .jmd t k => jumpAccesses s t .memory true k
  | .jmi t k => jumpAccesses s t .indirect true k
  | .skp0 _ k => [.read k]
  | .skp1 _ k => [.read k]
  | .set0 _ k => [.read k, .write k]
  | .set1 _ k => [.read k, .write k]
  | .sftl _ _ => []
  | .sftr _ _ => []
  | .rotr _ _ => []
  | .noop => []
  | .halt => []

/-- The accesses of one step: the fetch of the opcode byte and of the operand byte when there is one, then those of the
instruction (R71). A halted step makes none (40_engine_step.md R131). -/
def stepAccesses (s : State) : List Access :=
  if s.halt then []
  else
    match fetch s with
    | (d, k, t) =>
      .read (s.get .p) :: ((k.map fun _ => Access.read (s.get .p + 1#8)).toList ++
        match d.toInstr k with
        | some i => execAccesses i t
        | none => [])

/-- The address of an access. -/
def Access.address : Access → Byte
  | .read a => a
  | .write a => a

/-- The calls of the memory collaborator among the accesses: those at no register's address (20_memory.md R55;
60_exceptions.md R254). -/
def portCalls (l : List Access) : List Access := l.filter fun c => (regAt c.address).isNone

end Sys2Proof.Machine
end

