-- ==== Sys2Proof/Safety.lean ====
section
/-! DEFINITION. The words statements are written in: completing, the end of a run, the invariant, and what an
instruction leaves unchanged. -/

namespace Sys2Proof.Machine

/-- The outcome is a next state: neither a fault nor a refusal (60_exceptions.md R241). -/
def Completes (o : Host.Outcome State Fault Refusal) : Prop := ∃ t, o = .next t

/-- The step of this state ends a program's run: the engine runs, and the step sets the halt flag
(40_engine_step.md R141). -/
def EndsRun (s : State) : Prop := s.halt = false ∧ ∃ t, step s = .next t ∧ t.halt = true

/-- The record of the sinks is made of pairs, the output value before the halt flag (40_engine_step.md R137); newest
first, so each pair stands as the flag and then the value. -/
def pairedTrace : List Notification → Bool
  | [] => true
  | .halt _ :: .out _ :: l => pairedTrace l
  | _ => false

/-- What every step keeps: RAM in canonical form, the record of the sinks in pairs. -/
def StateInv (s : State) : Prop := Memory.wf s.ram ∧ pairedTrace s.trace = true

/-- The halt flag, the latch, the budget counter and the record of the sinks are as before. -/
def KeepsEngine (s t : State) : Prop :=
  t.halt = s.halt ∧ t.latch = s.latch ∧ t.budget = s.budget ∧ t.trace = s.trace

/-- Nothing but register `r` may differ: every other register, every byte of memory but the register's own cell, and the
engine's state are as before. -/
def OnlyRegister (r : RegName) (s t : State) : Prop :=
  (∀ q, q ≠ r → t.get q = s.get q) ∧ (∀ a, regAt a ≠ some r → memRead t a = memRead s a) ∧ KeepsEngine s t

/-- Nothing but the cell at `a` may differ: every byte of memory at another address, every register that does not lie at
`a`, and the engine's state are as before. -/
def OnlyCell (a : Byte) (s t : State) : Prop :=
  (∀ q, regAt a ≠ some q → t.get q = s.get q) ∧ (∀ b, b ≠ a → memRead t b = memRead s b) ∧ KeepsEngine s t

/-- A jump-and-mark to the cell `a`, from the state `s` with P already past the instruction: P is the address after `a`,
the cell holds the return address (unless it is P's own), and nothing else differs (43_jumps.md R173, R174). -/
def MarkedJump (a : Byte) (s t : State) : Prop :=
  t.get .p = a + 1#8 ∧ (a ≠ 3#8 → memRead t a = s.get .p) ∧ (∀ b, b ≠ a → b ≠ 3#8 → memRead t b = memRead s b) ∧
    (∀ q, q ≠ .p → regAt a ≠ some q → t.get q = s.get q) ∧ KeepsEngine s t

/-- The register an instruction writes as its register operand (10_state.md R23). -/
def destination : Instr → Option Reg
  | .add r _ _ => some r
  | .sub r _ _ => some r
  | .load r _ _ => some r
  | .or _ _ => some .a
  | .and _ _ => some .a
  | .lneg _ _ => some .a
  | .sftl r _ => some r
  | .sftr r _ => some r
  | .rotr r _ => some r
  | .store _ _ _ => none
  | .jpd _ _ => none
  | .jpi _ _ => none
  | .jmd _ _ => none
  | .jmi _ _ => none
  | .skp0 _ _ => none
  | .skp1 _ _ => none
  | .set0 _ _ => none
  | .set1 _ _ => none
  | .noop => none
  | .halt => none

/-- The byte a list of writes leaves at an address: the last one made there (20_memory.md R56, R74). -/
def lastWrite (ws : List (Byte × Byte)) (a : Byte) : Option Byte :=
  (ws.reverse.find? fun w => w.1 == a).map Prod.snd

/-- Memory after a list of writes, in order. -/
def memWrites (s : State) (ws : List (Byte × Byte)) : State := ws.foldl (fun t w => memWrite t w.1 w.2) s

end Sys2Proof.Machine
end

