-- ==== Sys2Proof/Certificates/Slice0/Obligations.lean ====
section
/-! DEFINITION. The statements for the provers. `exec i s` is the effect of `i` on a state whose P is already past the
instruction (10_state.md R26); `step` fetches, runs `exec`, charges and notifies. -/

open Sys2Proof Sys2Proof.Machine

/-! ### Decoding and encoding -/

/-- Every well-formed instruction, whatever its operands and whatever follows it, decodes from its encoding
(30_encoding.md R93 to R103). -/
def Obligations.DecodeOfEncodeIsTheInstruction : Prop :=
  ∀ (i : Instr) (rest : List Byte), i.wellFormed = true → decodeBytes (encode i ++ rest) = .instr i rest

/-- Decoding is total (R93, R104, R240): any two bytes decode to a well-formed instruction, the bytes it does not take
are left over, the descriptor has a shape of rule R101, and the canonical encoding of the instruction decodes alike. That
an unconditional jump decodes alike whatever `low` is rests on the spec's decision D23 and the choice of the canonical alias
is the model's (log 10); that OR, AND and LNEG have register A is its decision D1 (log 6). -/
def Obligations.EveryOpcodeByteIsAnInstruction : Prop :=
  ∀ (b k : Byte) (rest : List Byte), (decode b).consistent = true ∧
    ∃ i, i.wellFormed = true ∧ i.length = (decode b).length ∧
      decodeBytes (b :: k :: rest) = .instr i (if i.length = 2 then rest else k :: rest) ∧
      decode i.opcode = decode b ∧ (i.operandByte = none ∨ i.operandByte = some k)

/-- Steps 1 to 3 of the decision tree, over the three fields of the opcode byte (R94, R95, R96). -/
def Obligations.ZeroOperandShiftAndBitFamiliesDecode : Prop :=
  ∀ (hi : Fin 4) (mid : Fin 8),
    (decode (opcodeByte hi mid 0) =
        ⟨if hi.val.testBit 1 then .noop else .halt, none, none, none, none, false⟩ ∧
      (decode (opcodeByte hi mid 0)).length = 1) ∧
    (decode (opcodeByte hi mid 1) =
        ⟨![.sftr, .rotr, .sftl, .sftr] hi, none, some (if mid.val.testBit 2 then .b else .a),
          some (if mid.val &&& 3 = 0 then 4 else Fin.ofNat 8 (mid.val &&& 3)), none, false⟩ ∧
      (decode (opcodeByte hi mid 1)).length = 1) ∧
    (decode (opcodeByte hi mid 2) =
        ⟨![.set0, .set1, .skp0, .skp1] hi, some .memory, none, some mid, none, false⟩ ∧
      (decode (opcodeByte hi mid 2)).length = 2)

/-- Steps 4 to 6 of the decision tree (R97, R98, R99). That `low` is ignored without a register is the spec's decision
D23, that OR, AND and LNEG have register A its decision D1 (log 6, log 10). -/
def Obligations.JumpBitwiseAndAluFamiliesDecode : Prop :=
  ∀ low : Fin 5,
    (∀ hi j : Fin 4, decode (opcodeByte hi (4 + j) (3 + low)) =
      ⟨![.jpd, .jpi, .jmd, .jmi] j, some (![.memory, .indirect, .memory, .indirect] j),
        ![some .a, some .b, some .x, none] hi, none,
        if hi = 3 then none else some (![.nzero, .zero, .neg, .pos, .posNz] low), decide (2 ≤ j.val)⟩) ∧
    (∀ o : Fin 4, decode (opcodeByte 3 o (3 + low)) =
      if o = 1 then ⟨.noop, none, none, none, none, false⟩
      else ⟨![.or, .noop, .and, .lneg] o,
        some (![.constant, .memory, .indirect, .indexed, .indirectIndexed] low), some .a, none, none, false⟩) ∧
    (∀ (hi : Fin 3) (o : Fin 4), decode (opcodeByte hi o (3 + low)) =
      ⟨![.add, .sub, .load, .store] o,
        some (![.constant, .memory, .indirect, .indexed, .indirectIndexed] low),
        some (![.a, .b, .x] hi), none, none, false⟩)

/-- A few words written out from the spec's encodings (95_test_vectors.md sections 2 and 4). -/
def Obligations.WordsOfTheSpecDecode : Prop :=
  decodeBytes [0o004, 0o020] = .instr (.add .a .memory 0o020) [] ∧
  decodeBytes [0o136, 0o100] = .instr (.store .b .indexed 0o100) [] ∧
  decodeBytes [0o337, 0o001] = .instr (.lneg .indirectIndexed 0o001) [] ∧
  decodeBytes [0o275, 0o050] = .instr (.jmi (.ifReg .x .neg) 0o050) [] ∧
  decodeBytes [0o347, 0o004] = .instr (.jpd .unconditional 0o004) [] ∧
  decodeBytes [0o372, 0o000] = .instr (.skp1 7 0o000) [] ∧
  decodeBytes [0o351, 0o007] = .instr (.sftr .b 1) [0o007] ∧
  decodeBytes [0o315, 0o334] = .instr .noop [0o334] ∧
  decodeBytes [0o170] = .instr .halt []

/-- The aliases are those of the table of R104 and no others: two opcode bytes have one descriptor exactly when they are
equal, both HALT, both NOOP, SFTR with `hi` 0 and 3 and the same `mid`, or unconditional jumps with the same `mid`. -/
def Obligations.AliasedOpcodesAreExactlyTheListedOnes : Prop :=
  ∀ b c : Byte, decode b = decode c ↔
    b = c ∨ ((decode b).function = .halt ∧ (decode c).function = .halt) ∨
    ((decode b).function = .noop ∧ (decode c).function = .noop) ∨
    (lowField b = 1 ∧ lowField c = 1 ∧ midField b = midField c ∧ (hiField b = 0 ∨ hiField b = 3) ∧
      (hiField c = 0 ∨ hiField c = 3)) ∨
    (3 ≤ lowField b ∧ 3 ≤ lowField c ∧ 4 ≤ midField b ∧ midField b = midField c ∧ hiField b = 3 ∧ hiField c = 3)

/-! ### The step -/

/-- A step of a running machine is the effect of the instruction its next bytes decode to, on the state whose P is past
that instruction, then the charge and the notifications (R132). The order of the two sinks is the spec's decision D22
(log 12). -/
def Obligations.StepRunsTheDecodedInstruction : Prop :=
  ∀ (s : State) (i : Instr), s.halt = false → nextInstr s = some i →
    step s = onNext (exec i (advance s (BitVec.ofNat 8 i.length))) fun t => notify (charge t)

/-- The placing of a table word: the next step of the placed state fetches and runs the instruction the decoder reads
from it. The placing is the model's own (log 9). -/
def Obligations.PlacedWordIsTheNextInstruction : Prop :=
  ∀ (s : State) (nbits w : Nat) (i : Instr), decodeTableWord nbits w = some i →
    (s.withFetchWord nbits w).halt = false ∧ nextInstr (s.withFetchWord nbits w) = some i ∧
      step (s.withFetchWord nbits w) =
        onNext (exec i (advance (s.withFetchWord nbits w) (BitVec.ofNat 8 i.length))) fun t => notify (charge t)

/-- No state faults or is refused: every step answers a next state, and every state has a next instruction, a well-formed
one. That the step of a running engine is total is the spec's own inference (R241, from R240), for OR, AND and LNEG by its
decision D1 (log 6); a halted engine's step is R131. -/
def Obligations.EveryStepCompletes : Prop :=
  ∀ s : State, Completes (step s) ∧ ∃ i, nextInstr s = some i ∧ i.wellFormed = true

/-- The internal-consistency fault (R242): `execute` raises it on a descriptor that lacks the register its function
requires, and on a jump with a condition and no register. That `execute` represents the fault is the spec's decision D14;
that an absent bit position or place count and an absent mode raise it as well is the model's choice (log 18). -/
def Obligations.MissingFieldIsTheInternalFault : Prop :=
  ∀ (d : Descriptor) (k : Option Byte) (s : State),
    (d.registerOperand = none → d.function ∈ [.add, .sub, .load, .store, .or, .and, .lneg, .sftl, .sftr, .rotl, .rotr] →
      execute d k s = .fault (.internalConsistency d.function)) ∧
    (d.registerOperand = none → d.jumpCondition ≠ none → d.function ∈ [.jpd, .jpi, .jmd, .jmi] →
      execute d k s = .fault (.internalConsistency d.function)) ∧
    (d.bitPosition = none → d.function ∈ [.sftl, .sftr, .rotl, .rotr, .skp0, .skp1, .set0, .set1] →
      execute d k s = .fault (.internalConsistency d.function)) ∧
    (d.addressingMode = none →
      d.function ∈ [.add, .sub, .load, .store, .or, .and, .lneg, .jpd, .jpi, .jmd, .jmi, .skp0, .skp1, .set0, .set1] →
      execute d k s = .fault (.internalConsistency d.function))

/-- RAM in canonical form and the record of the sinks in pairs are kept by every step, from every state that has them. The
form and the record are the model's (log 1, log 7), the order in a pair is the spec's decision D22 (log 12). -/
def Obligations.StepKeepsCanonicalMemoryAndPairedRecord : Prop :=
  ∀ s t : State, StateInv s → step s = .next t → StateInv t

/-- The state after reset has the invariant. That RAM is then the empty list and the record empty are the model's choices
(log 1, log 7). -/
def Obligations.ResetHasCanonicalMemoryAndPairedRecord : Prop := StateInv State.reset

/-- A halted step consumes the rest of the budget, makes no access and changes nothing else (R131). That no sink is called
is the spec's decision D7 (log 12). -/
def Obligations.HaltedStepOnlyEmptiesTheBudget : Prop :=
  ∀ s : State, s.halt = true → stepAccesses s = [] ∧
    ∃ t, step s = .next t ∧ t.budget = 0 ∧ (∀ q, t.get q = s.get q) ∧ (∀ a, memRead t a = memRead s a) ∧
      t.halt = true ∧ t.latch = s.latch ∧ t.trace = s.trace

/-- Every executed step costs the same positive amount and calls the two sinks once each, the output value first, with the
values after the instruction; the latch is not touched (R136, R137). The order of the sinks is the spec's decision D22,
the positive cost its decision D6 (log 4, log 12). -/
def Obligations.ExecutedStepChargesAndNotifies : Prop :=
  0 < Config.stepCost ∧ ∀ s t : State, s.halt = false → step s = .next t →
    t.budget = s.budget - Config.stepCost ∧ t.trace = .halt t.halt :: .out (t.get .out) :: s.trace ∧ t.latch = s.latch

/-- A run of any number of steps only adds to the record of the sinks, in pairs, and leaves the latch alone (R268). The
record is the model's (log 7); the order in a pair and the silence of a halted step are the spec's decisions D22 and D7
(log 12). -/
def Obligations.RunsExtendTheRecordByPairs : Prop :=
  ∀ (n : Nat) (s : State), ∃ t, Sys2Proof.core.run n s = .next t ∧
    t.latch = s.latch ∧ ∃ l, t.trace = l ++ s.trace ∧ pairedTrace l = true ∧ l.length ≤ 2 * n

/-- The halt flag after a step: it stays set, and it becomes set exactly by a HALT instruction, which is what ends a run
(R130, R141, R206). The reading of the end of a run is the spec's decision D26 (log 13). -/
def Obligations.OnlyHaltSetsTheHaltFlag : Prop :=
  ∀ s t : State, step s = .next t →
    (t.halt = true ↔ s.halt = true ∨ nextInstr s = some .halt) ∧
      (EndsRun s ↔ s.halt = false ∧ nextInstr s = some .halt)

/-- OCA, OCB and OCX are inert: a step changes one of them only by writing its own address as a memory cell (R30). -/
def Obligations.CarryCellsChangeOnlyByAWriteAtTheirAddress : Prop :=
  ∀ (s t : State) (q : RegName), q ∈ [.oca, .ocb, .ocx] → step s = .next t → t.get q ≠ s.get q →
    ∃ a, regAt a = some q ∧ Access.write a ∈ stepAccesses s

/-- The frame of every step: an address the step does not write, that is neither P's nor the destination register's,
reads as before (10_state.md R23, R27; 20_memory.md R71). -/
def Obligations.StepChangesOnlyWhatItWrites : Prop :=
  ∀ (s t : State) (i : Instr) (a : Byte), s.halt = false → nextInstr s = some i → step s = .next t →
    Access.write a ∉ stepAccesses s → regAt a ≠ some .p → (∀ r, destination i = some r → regAt a ≠ some (bankReg r)) →
    memRead t a = memRead s a

/-- A step depends on RAM only through the bytes it reads: with RAM replaced so that those bytes stay, it makes the same
accesses and leaves the same registers, flag, latch, budget and record, and cells differ after it only where they
differed before (20_memory.md R71; 43_jumps.md R170). -/
def Obligations.StepDependsOnlyOnTheCellsItReads : Prop :=
  ∀ (s : State) (m : Memory),
    (∀ a, Access.read a ∈ stepAccesses s → memRead { s with ram := m } a = memRead s a) →
    stepAccesses { s with ram := m } = stepAccesses s ∧
    ∃ t u, step s = .next t ∧ step { s with ram := m } = .next u ∧ (∀ q, u.get q = t.get q) ∧ KeepsEngine t u ∧
      ∀ a, memRead { s with ram := m } a = memRead s a → memRead u a = memRead t a

/-! ### Memory and operands -/

/-- `RegAt` at the nine addresses and at every other (20_memory.md R52). -/
def Obligations.RegAtIsTheTableOfNineAddresses : Prop :=
  regAt 0#8 = some .a ∧ regAt 1#8 = some .b ∧ regAt 2#8 = some .x ∧ regAt 3#8 = some .p ∧ regAt 128#8 = some .out ∧
  regAt 129#8 = some .oca ∧ regAt 130#8 = some .ocb ∧ regAt 131#8 = some .ocx ∧ regAt 255#8 = some .inp ∧
  ∀ a : Byte, a ∉ [0#8, 1#8, 2#8, 3#8, 128#8, 129#8, 130#8, 131#8, 255#8] → regAt a = none

/-- A register's address never reaches RAM: a read there does not depend on RAM, a write there leaves RAM as it is, and
neither is a call of the memory port (20_memory.md R55). -/
def Obligations.RegisterAddressesNeverReachRam : Prop :=
  ∀ (s : State) (a v : Byte) (m : Memory) (q : RegName), regAt a = some q →
    memRead { s with ram := m } a = s.get q ∧ (memWrite s a v).ram = s.ram ∧ (memWrite s a v).get q = v ∧
      portCalls [.read a, .write a] = []

/-- Memory is plain storage: after any sequence of writes a byte reads as the last one written there, and as it did before
where none was; right after reset a RAM cell reads as its power-on content (20_memory.md R53, R54, R56, D5; log 1). -/
def Obligations.MemoryReadsTheLastByteWritten : Prop :=
  (∀ (s : State) (ws : List (Byte × Byte)) (a : Byte),
    memRead (memWrites s ws) a = (lastWrite ws a).getD (memRead s a)) ∧
  ∀ a, regAt a = none → memRead State.reset a = Config.ram0 a

/-- The read and the write contract of the five addressing modes, and the jump addressing: a CONSTANT write makes no
access and stores nowhere, a jump's MEMORY is the operand byte and its INDIRECT one dereference (20_memory.md R65, R66,
R67). -/
def Obligations.OperandFormsPerMode : Prop :=
  ∀ (s : State) (k v : Byte),
    (resolveRead s .constant k = k ∧
      resolveRead s .memory k = memRead s k ∧
      resolveRead s .indirect k = memRead s (memRead s k) ∧
      resolveRead s .indexed k = memRead s (BitVec.ofNat 8 ((k.toNat + (s.get .x).toNat) % 256)) ∧
      resolveRead s .indirectIndexed k =
        memRead s (BitVec.ofNat 8 (((memRead s k).toNat + (s.get .x).toNat) % 256))) ∧
    (resolveWrite s .constant k v = s ∧
      resolveWrite s .memory k v = memWrite s k v ∧
      resolveWrite s .indirect k v = memWrite s (memRead s k) v ∧
      resolveWrite s .indexed k v = memWrite s (BitVec.ofNat 8 ((k.toNat + (s.get .x).toNat) % 256)) v ∧
      resolveWrite s .indirectIndexed k v =
        memWrite s (BitVec.ofNat 8 (((memRead s k).toNat + (s.get .x).toNat) % 256)) v) ∧
    (jumpTarget s .memory k = k ∧ jumpTarget s .indirect k = memRead s k) ∧
    resolveReadAccesses s .constant k = [] ∧ resolveWriteAccesses s .constant k = []

/-- A write and then a read in the same mode give the byte back, unless the write changes what the address is computed
from; both exceptions occur (20_memory.md R73; 90_conflicts.md C4). -/
def Obligations.ResolverRoundTripWithItsSideCondition : Prop :=
  (∀ (s : State) (m : Mode) (k v : Byte), m ≠ .constant →
    effAddr (resolveWrite s m k v) m k = effAddr s m k → resolveRead (resolveWrite s m k v) m k = v) ∧
  (∀ (s : State) (k v : Byte), resolveRead (resolveWrite s .memory k v) .memory k = v) ∧
  (∀ (s : State) (k v : Byte), (k + s.get .x = 2#8 → v = s.get .x) →
    resolveRead (resolveWrite s .indexed k v) .indexed k = v) ∧
  (∀ (s : State) (k v : Byte), (memRead s k = k → v = k) →
    resolveRead (resolveWrite s .indirect k v) .indirect k = v) ∧
  (∃ (s : State) (k v : Byte), resolveRead (resolveWrite s .indexed k v) .indexed k ≠ v) ∧
  (∃ (s : State) (k v : Byte), resolveRead (resolveWrite s .indirect k v) .indirect k ≠ v)

/-! ### The ALU family -/

/-- ADD: its encoding, its sum modulo 256, and nothing else changed: no flag, not OCA, OCB or OCX (41_alu.md R150). -/
def Obligations.AddWrapsAndChangesOnlyItsRegister : Prop :=
  ∀ (r : Reg) (m : Mode) (k : Byte),
    (∀ rest, decodeBytes (opcodeByte r.hi 0 m.low :: k :: rest) = .instr (.add r m k) rest) ∧
    ∀ s : State, ∃ t, exec (.add r m k) s = .next t ∧
      (t.reg r).toNat = ((s.reg r).toNat + (resolveRead s m k).toNat) % 256 ∧ OnlyRegister (bankReg r) s t

/-- SUB: its encoding, register less operand modulo 256, and nothing else changed (41_alu.md R151). -/
def Obligations.SubWrapsAndChangesOnlyItsRegister : Prop :=
  ∀ (r : Reg) (m : Mode) (k : Byte),
    (∀ rest, decodeBytes (opcodeByte r.hi 1 m.low :: k :: rest) = .instr (.sub r m k) rest) ∧
    ∀ s : State, ∃ t, exec (.sub r m k) s = .next t ∧
      ((t.reg r).toNat : Int) = (((s.reg r).toNat : Int) - (resolveRead s m k).toNat) % 256 ∧
      OnlyRegister (bankReg r) s t

/-- LOAD: its encoding, the resolved value in the register, and nothing else changed (41_alu.md R152). -/
def Obligations.LoadChangesOnlyItsRegister : Prop :=
  ∀ (r : Reg) (m : Mode) (k : Byte),
    (∀ rest, decodeBytes (opcodeByte r.hi 2 m.low :: k :: rest) = .instr (.load r m k) rest) ∧
    ∀ s : State, ∃ t, exec (.load r m k) s = .next t ∧ t.reg r = resolveRead s m k ∧ OnlyRegister (bankReg r) s t

/-- STORE: its encoding, the register's byte at the effective address and every other byte unchanged; nothing at all in
CONSTANT mode (41_alu.md R153). -/
def Obligations.StoreWritesOnlyItsEffectiveAddress : Prop :=
  ∀ (r : Reg) (m : Mode) (k : Byte),
    (∀ rest, decodeBytes (opcodeByte r.hi 3 m.low :: k :: rest) = .instr (.store r m k) rest) ∧
    ∀ s : State, ∃ t, exec (.store r m k) s = .next t ∧
      (∀ a, effAddr s m k = some a → memRead t a = s.reg r ∧ OnlyCell a s t) ∧
      (effAddr s m k = none ↔ m = .constant) ∧ (m = .constant → t = s)

/-- A STORE in any mode whose effective address, with P past the instruction, is 3 is a jump to the address in the register
(70_reset_and_hazards.md R287). -/
def Obligations.StoreToAddressThreeJumps : Prop :=
  ∀ (s : State) (r : Reg) (m : Mode) (k : Byte), s.halt = false → nextInstr s = some (.store r m k) →
    effAddr (advance s 2#8) m k = some 3#8 →
    ∃ t, step s = .next t ∧ t.get .p = s.reg r ∧ ∀ a, a ≠ 3#8 → memRead t a = memRead s a

/-- A STORE in any mode into the cell P points at after it is seen by the next fetch (20_memory.md R78;
70_reset_and_hazards.md R288; the spec's decision D20, log 12). -/
def Obligations.StoreIntoTheNextOpcodeIsFetched : Prop :=
  ∀ (s t : State) (r : Reg) (m : Mode) (k : Byte), s.halt = false → nextInstr s = some (.store r m k) →
    step s = .next t → effAddr (advance s 2#8) m k = some (t.get .p) → (fetch t).1 = decode (s.reg r)

/-! ### The bitwise family -/

/-- OR and AND, bit by bit, on A alone (42_bitwise.md R161, R162). That the register is A is the spec's decision D1
(log 6). -/
def Obligations.OrAndAndChangeOnlyRegisterA : Prop :=
  ∀ (m : Mode) (k : Byte) (s : State),
    (∃ t, exec (.or m k) s = .next t ∧ OnlyRegister .a s t ∧
      ∀ j, (t.get .a).getLsbD j = ((s.get .a).getLsbD j || (resolveRead s m k).getLsbD j)) ∧
    ∃ t, exec (.and m k) s = .next t ∧ OnlyRegister .a s t ∧
      ∀ j, (t.get .a).getLsbD j = ((s.get .a).getLsbD j && (resolveRead s m k).getLsbD j)

/-- LNEG: A is the operand negated, -128 left as it is; it is negation modulo 256, and twice it is the operand again
(42_bitwise.md R163, 41_alu.md R154). That the register is A is the spec's decision D1 (log 6). -/
def Obligations.LnegLoadsTheNegatedOperandIntoA : Prop :=
  (∀ (m : Mode) (k : Byte) (s : State), ∃ t, exec (.lneg m k) s = .next t ∧
    t.get .a = 0#8 - resolveRead s m k ∧
    signed (t.get .a) = (if signed (resolveRead s m k) = -128 then -128 else -(signed (resolveRead s m k))) ∧
    OnlyRegister .a s t) ∧
  ∀ s : State, ∃ t u, exec (.lneg .memory 0#8) s = .next t ∧ exec (.lneg .memory 0#8) t = .next u ∧ u.get .a = s.get .a

/-! ### The jump family -/

/-- The five conditions on the signed value and on the bits of a register, and when a jump is taken (43_jumps.md R175). -/
def Obligations.ConditionsHoldBySignAndZero : Prop :=
  ∀ v : Byte,
    (holds .nzero v = true ↔ signed v ≠ 0) ∧ (holds .nzero v = true ↔ v ≠ 0#8) ∧
    (holds .zero v = true ↔ signed v = 0) ∧ (holds .zero v = true ↔ v = 0#8) ∧
    (holds .neg v = true ↔ signed v < 0) ∧ (holds .neg v = true ↔ v.getLsbD 7 = true) ∧
    (holds .pos v = true ↔ 0 ≤ signed v) ∧ (holds .pos v = true ↔ v.getLsbD 7 = false) ∧
    (holds .posNz v = true ↔ 0 < signed v) ∧ (holds .posNz v = true ↔ v.getLsbD 7 = false ∧ v ≠ 0#8) ∧
    (condOfLow 3 = some .nzero ∧ condOfLow 4 = some .zero ∧ condOfLow 5 = some .neg ∧ condOfLow 6 = some .pos ∧
      condOfLow 7 = some .posNz) ∧
    (conditionText (some .nzero) = "!=0" ∧ conditionText (some .zero) = "=0" ∧ conditionText (some .neg) = "<0" ∧
      conditionText (some .pos) = ">=0" ∧ conditionText (some .posNz) = ">0" ∧ conditionText none = "UNC") ∧
    ∀ s : State, jumpTaken s .unconditional = true ∧ ∀ r c, jumpTaken s (.ifReg r c) = holds c (s.reg r)

/-- JPD: its encodings; with the condition met P is the operand byte, no memory is read for it, and nothing else changes;
otherwise nothing changes (43_jumps.md R171). -/
def Obligations.JpdJumpsToItsOperandByte : Prop :=
  ∀ (t : JumpTest) (k : Byte),
    (∀ rest, decodeBytes (jumpOpcode 0 t :: k :: rest) = .instr (.jpd t k) rest) ∧
    (∀ (h : Fin 4) (l : Fin 5), (decode (opcodeByte h 4 (3 + l))).function = .jpd ∧
      (decode (opcodeByte h 4 (3 + l))).addressingMode = some .memory ∧ (decode (opcodeByte h 4 (3 + l))).mark = false) ∧
    ∀ s : State, execAccesses (.jpd t k) s = [] ∧ ∃ u, exec (.jpd t k) s = .next u ∧
      (jumpTaken s t = true → u.get .p = k) ∧ (jumpTaken s t = false → u = s) ∧ OnlyRegister .p s u

/-- JPI: its encodings; with the condition met P is the byte in the cell `k`, one dereference, and the cell is read only
then; otherwise nothing changes (43_jumps.md R172). -/
def Obligations.JpiJumpsThroughItsPointer : Prop :=
  ∀ (t : JumpTest) (k : Byte),
    (∀ rest, decodeBytes (jumpOpcode 1 t :: k :: rest) = .instr (.jpi t k) rest) ∧
    (∀ (h : Fin 4) (l : Fin 5), (decode (opcodeByte h 5 (3 + l))).function = .jpi ∧
      (decode (opcodeByte h 5 (3 + l))).addressingMode = some .indirect ∧ (decode (opcodeByte h 5 (3 + l))).mark = false) ∧
    ∀ s : State, execAccesses (.jpi t k) s = (if jumpTaken s t then [.read k] else []) ∧
      ∃ u, exec (.jpi t k) s = .next u ∧
      (jumpTaken s t = true → u.get .p = memRead s k) ∧ (jumpTaken s t = false → u = s) ∧ OnlyRegister .p s u

/-- JMD: with the condition met the return address is written to the cell `k` and P is the address after it; otherwise
nothing changes (43_jumps.md R173). That the sum wraps is the spec's decision D3 (log 11). -/
def Obligations.JmdMarksAndJumps : Prop :=
  ∀ (t : JumpTest) (k : Byte) (s : State), ∃ u, exec (.jmd t k) s = .next u ∧
    (jumpTaken s t = true → MarkedJump k s u) ∧ (jumpTaken s t = false → u = s)

/-- JMI: as JMD, with the byte in the cell `k`, taken before the mark is written, as the mark cell (43_jumps.md R174). That
the sum wraps is the spec's decision D3 (log 11). -/
def Obligations.JmiMarksAndJumpsThroughItsPointer : Prop :=
  ∀ (t : JumpTest) (k : Byte) (s : State), ∃ u, exec (.jmi t k) s = .next u ∧
    (jumpTaken s t = true → MarkedJump (memRead s k) s u) ∧ (jumpTaken s t = false → u = s)

/-- The source's jump-and-mark test for every running state: a JMD at P0 to a mark cell T leaves P0 + 2 in the cell and
T + 1 in P, and a JPI through T executed next returns to P0 + 2 (43_jumps.md R173, R177; 95_test_vectors.md S6). -/
def Obligations.SubroutineCallReturnsPastTheJump : Prop :=
  ∀ (s : State) (k : Byte), k ≠ 3#8 → s.halt = false → nextInstr s = some (.jmd .unconditional k) →
    ∃ t, step s = .next t ∧ memRead t k = s.get .p + 2#8 ∧ t.get .p = k + 1#8 ∧
      (nextInstr t = some (.jpi .unconditional k) → ∃ u, step t = .next u ∧ u.get .p = s.get .p + 2#8)

/-- A conditional jump whose condition fails reads its own two bytes and nothing more, writes nothing, and goes on at
P0 + 2 (43_jumps.md R170). -/
def Obligations.FailedConditionalJumpTouchesNothing : Prop :=
  ∀ (s : State) (r : Reg) (c : Cond) (k : Byte) (i : Instr), s.halt = false → holds c (s.reg r) = false →
    i ∈ [.jpd (.ifReg r c) k, .jpi (.ifReg r c) k, .jmd (.ifReg r c) k, .jmi (.ifReg r c) k] →
    nextInstr s = some i →
    stepAccesses s = [.read (s.get .p), .read (s.get .p + 1#8)] ∧
    ∃ t, step s = .next t ∧ t.get .p = s.get .p + 2#8 ∧ (∀ q, q ≠ .p → t.get q = s.get q) ∧
      (∀ a, a ≠ 3#8 → memRead t a = memRead s a) ∧ t.halt = false

/-! ### The bit family -/

/-- SKP_0 and SKP_1: two bytes are skipped exactly when the tested bit has the wanted value, and nothing else changes
(44_bit_skip_set.md R186, R187). The numbering of the bits is the spec's decision D12 (log 11). -/
def Obligations.SkipsAddTwoWhenTheBitHasTheValue : Prop :=
  ∀ (n : Fin 8) (k : Byte) (s : State),
    (∃ t, exec (.skp0 n k) s = .next t ∧ OnlyRegister .p s t ∧
      t.get .p = if (memRead s k).toNat / 2 ^ n.val % 2 = 0 then s.get .p + 2#8 else s.get .p) ∧
    ∃ t, exec (.skp1 n k) s = .next t ∧ OnlyRegister .p s t ∧
      t.get .p = if (memRead s k).toNat / 2 ^ n.val % 2 = 1 then s.get .p + 2#8 else s.get .p

/-- SET_0 and SET_1: the one bit of the cell `k` becomes 0, or 1; its seven other bits, every other byte and every other
register stay (44_bit_skip_set.md R188, R189). Which of the two sets is the spec's decision D21, the numbering of the
bits D12 (log 11). -/
def Obligations.SetsChangeOneBitOfOneCell : Prop :=
  ∀ (n : Fin 8) (k : Byte) (s : State),
    (∃ t, exec (.set0 n k) s = .next t ∧ OnlyCell k s t ∧
      ∀ j : Fin 8, (memRead t k).getLsbD j = if j = n then false else (memRead s k).getLsbD j) ∧
    ∃ t, exec (.set1 n k) s = .next t ∧ OnlyCell k s t ∧
      ∀ j : Fin 8, (memRead t k).getLsbD j = if j = n then true else (memRead s k).getLsbD j

/-! ### The shift and rotate family -/

/-- SFTL: its encoding, bits moved up by the count with zeros below, and nothing else changed (45_shift_rotate.md R196). -/
def Obligations.SftlMovesBitsUp : Prop :=
  ∀ (r : Reg) (n : Fin 8),
    (r.shiftable = true → validPlaces n = true →
      ∀ rest, decodeBytes (opcodeByte 2 ((if r = .b then 4 else 0) + n.val % 4) 1 :: rest) = .instr (.sftl r n) rest) ∧
    ∀ s : State, ∃ t, exec (.sftl r n) s = .next t ∧
      (∀ j : Fin 8, (t.reg r).getLsbD j = if j.val < n.val then false else (s.reg r).getLsbD (j.val - n.val)) ∧
      OnlyRegister (bankReg r) s t

/-- SFTR: one place to the right with bit 7 kept, whatever the count, and nothing else changed; the result is the signed
value halved toward minus infinity, and the other reading differs exactly on the odd negative values
(45_shift_rotate.md R197). The reading is the spec's decision D2 (log 5). -/
def Obligations.SftrShiftsOnePlaceKeepingTheSign : Prop :=
  (∀ (r : Reg) (n : Fin 8) (s : State), ∃ t, exec (.sftr r n) s = .next t ∧
    (t.reg r).getLsbD 7 = (s.reg r).getLsbD 7 ∧
    (∀ j : Fin 7, (t.reg r).getLsbD j = (s.reg r).getLsbD (j.val + 1)) ∧
    signed (t.reg r) = signed (s.reg r) / 2 ∧ OnlyRegister (bankReg r) s t ∧
    ∀ n', exec (.sftr r n') s = .next t) ∧
  ∀ v : Byte, shiftedRight .floor v ≠ shiftedRight .trunc v ↔ v.getLsbD 7 = true ∧ v.getLsbD 0 = true

/-- ROTR: its encoding, every bit `j` of the result is bit `j + n` modulo 8 of the register, and nothing else changed
(45_shift_rotate.md R199). -/
def Obligations.RotrRotatesRight : Prop :=
  ∀ (r : Reg) (n : Fin 8),
    (r.shiftable = true → validPlaces n = true →
      ∀ rest, decodeBytes (opcodeByte 1 ((if r = .b then 4 else 0) + n.val % 4) 1 :: rest) = .instr (.rotr r n) rest) ∧
    ∀ s : State, ∃ t, exec (.rotr r n) s = .next t ∧
      (∀ j : Fin 8, (t.reg r).getLsbD j = (s.reg r).getLsbD ((j.val + n.val) % 8)) ∧ OnlyRegister (bankReg r) s t

/-- Two ROTRs of one register are one ROTR by the sum of the counts modulo 8 (45_shift_rotate.md R199). An opcode names the
counts 1 to 4 alone; that `exec` of a ROTR by another count, such as the sum 7, follows the rule's formula is the model's
choice (log 10). -/
def Obligations.RotatesRightAddUp : Prop :=
  ∀ (r : Reg) (n₁ n₂ : Fin 8) (s : State), ∃ t u, exec (.rotr r n₁) s = .next t ∧ exec (.rotr r n₂) t = .next u ∧
    exec (.rotr r (n₁ + n₂)) s = .next u

/-- ROTL has no opcode, where it might stand is SFTR, and its dispatch arm rotates left
(30_encoding.md R106; 45_shift_rotate.md R198). -/
def Obligations.RotlIsADispatchArmWithoutAnOpcode : Prop :=
  (∀ b : Byte, (decode b).function ≠ .rotl ∧ (lowField b = 1 → hiField b = 3 → (decode b).function = .sftr)) ∧
  ∀ (d : Descriptor) (k : Option Byte) (s : State) (r : Reg) (n : Fin 8), d.function = .rotl →
    d.registerOperand = some r → d.bitPosition = some n →
    ∃ t, execute d k s = .next t ∧
      (∀ j : Fin 8, (t.reg r).getLsbD ((j.val + n.val) % 8) = (s.reg r).getLsbD j) ∧ OnlyRegister (bankReg r) s t

/-! ### NOOP and HALT -/

/-- NOOP in both its groups of encodings is one byte long and does nothing beyond the step's own part (46_noop_halt.md
R205). -/
def Obligations.NoopOnlyAdvances : Prop :=
  (∀ s : State, exec .noop s = .next s) ∧
  ∀ (b : Byte) (rest : List Byte), (b &&& 0x87#8 = 0x80#8 ∨ b ∈ [0xCB#8, 0xCC#8, 0xCD#8, 0xCE#8, 0xCF#8]) →
    decodeBytes (b :: rest) = .instr .noop rest ∧
    ∀ s : State, s.halt = false → memRead s (s.get .p) = b →
      ∃ t, step s = .next t ∧ OnlyRegister .p s { t with budget := s.budget, trace := s.trace } ∧
        t.get .p = s.get .p + 1#8 ∧ t.budget = s.budget - Config.stepCost ∧
        ∃ l, t.trace = l ++ s.trace ∧ List.Perm l [.out (s.get .out), .halt false]

/-- HALT in its sixteen encodings is one byte long, sets the halt flag and leaves P past itself; its step is charged and
both sinks are notified, the flag set; the next step changes no register and no byte, and `set_halt(false)` resumes after
the HALT (46_noop_halt.md R206). -/
def Obligations.HaltSetsTheFlagAndAdvances : Prop :=
  (∀ s : State, exec .halt s = .next { s with halt := true }) ∧
  ∀ (b : Byte) (rest : List Byte), b &&& 0x87#8 = 0#8 →
    decodeBytes (b :: rest) = .instr .halt rest ∧
    ∀ s : State, s.halt = false → memRead s (s.get .p) = b →
      ∃ t, step s = .next t ∧ t.halt = true ∧ t.get .p = s.get .p + 1#8 ∧ (∀ q, q ≠ .p → t.get q = s.get q) ∧
        (∀ a, a ≠ 3#8 → memRead t a = memRead s a) ∧
        t.budget = s.budget - Config.stepCost ∧
        (∃ l, t.trace = l ++ s.trace ∧ List.Perm l [.out (s.get .out), .halt true]) ∧
        (∃ u, step t = .next u ∧ u.halt = true ∧ (∀ q, u.get q = t.get q) ∧ ∀ a, memRead u a = memRead t a) ∧
        (panelCall (.setHalt false) t).2.halt = false ∧ (panelCall (.setHalt false) t).2.get .p = s.get .p + 1#8

/-! ### Reset and the burst -/

/-- Reset sets the nine registers to 0 and the halt flag to false; so is the state after power-on and reset
(70_reset_and_hazards.md R280). -/
def Obligations.ResetClearsTheRegisterBankAndTheHaltFlag : Prop :=
  (∀ s : State, (∀ q, (machineReset s).get q = 0#8) ∧ (machineReset s).halt = false) ∧
  (∀ q, State.reset.get q = 0#8) ∧ State.reset.halt = false

/-- After a reset of any state, the first step is a HALT from register A: P is 1, the engine is halted, the other
registers are 0, and RAM, the latch and the record before the step are those before the reset
(70_reset_and_hazards.md R281, R282; the spec's decisions D24 and, for the order of the sinks, D22, log 12). -/
def Obligations.FirstStepAfterResetHalts : Prop :=
  ∀ s : State, ∃ t, step (machineReset s) = .next t ∧ t.get .p = 1#8 ∧ t.halt = true ∧
    (∀ q, q ≠ .p → t.get q = 0#8) ∧ t.ram = s.ram ∧ t.latch = s.latch ∧
    t.trace = .halt true :: .out 0#8 :: s.trace ∧ t.budget = s.budget - Config.stepCost

/-- A burst always comes back, with its budget spent; of a halted engine it is at most one halted step
(40_engine_step.md R138). The loop's exit test and the positive cost of a step are the spec's decision D6 (log 14,
log 4). -/
def Obligations.BurstReturnsWithTheBudgetSpent : Prop :=
  ∀ (n : Int) (s : State), ∃ t, burst n s = .next t ∧ t.budget ≤ 0 ∧ t.latch = s.latch ∧
    (s.halt = true → 0 < n → t = { s with budget := 0 })

/-! ### The front panel -/

/-- `clear_input`, `get_input`, `set_address` and `get_halt`: their effect or their answer, and no other register,
byte, flag or counter changed
(60_exceptions.md R257, R258, R259, R264). -/
def Obligations.SimplePanelCalls : Prop :=
  ∀ s : State,
    ((panelCall .clearInput s).2.get .inp = 0#8 ∧ (∀ q, q ≠ .inp → (panelCall .clearInput s).2.get q = s.get q) ∧
      (∀ a, a ≠ 255#8 → memRead (panelCall .clearInput s).2 a = memRead s a) ∧
      (panelCall .clearInput s).2.halt = s.halt ∧ (panelCall .clearInput s).2.latch = s.latch ∧
      (panelCall .clearInput s).2.budget = s.budget) ∧
    panelCall .getInput s = (.byte (s.get .inp), s) ∧
    ((panelCall .setAddress s).2.latch = s.get .inp ∧ (∀ q, (panelCall .setAddress s).2.get q = s.get q) ∧
      (∀ a, memRead (panelCall .setAddress s).2 a = memRead s a) ∧
      (panelCall .setAddress s).2.halt = s.halt ∧ (panelCall .setAddress s).2.budget = s.budget) ∧
    panelCall .getHalt s = (.flag s.halt, s)

/-- `set_input_bit`, `display_address`, `read_value` and `set_halt` (60_exceptions.md R256, R260, R262, R263). That only
`set_halt` notifies, and both sinks in that order, is the spec's decisions D8, D9 and D22 (log 12), the range of the bit
D10 (log 15). -/
def Obligations.PanelCallsThatSetABitShowOrStop : Prop :=
  ∀ s : State,
    (∀ i : Fin 8, OnlyRegister .inp s (panelCall (.setInputBit i) s).2 ∧
      ∀ j : Fin 8, ((panelCall (.setInputBit i) s).2.get .inp).getLsbD j = (decide (j = i) || (s.get .inp).getLsbD j)) ∧
    ((panelCall .displayAddress s).2.get .out = s.latch ∧ OnlyRegister .out s (panelCall .displayAddress s).2) ∧
    ((panelCall .readValue s).2.get .out = memRead s s.latch ∧ OnlyRegister .out s (panelCall .readValue s).2) ∧
    ∀ b : Bool, (panelCall (.setHalt b) s).2.halt = b ∧
      (panelCall (.setHalt b) s).2.trace = .halt b :: .out (s.get .out) :: s.trace ∧
      (∀ q, (panelCall (.setHalt b) s).2.get q = s.get q) ∧ (panelCall (.setHalt b) s).2.ram = s.ram ∧
      (panelCall (.setHalt b) s).2.latch = s.latch ∧ (panelCall (.setHalt b) s).2.budget = s.budget

/-- `store_value`: IN goes to the cell at the latch, through the overlay, and the latch moves on by one modulo 256
(60_exceptions.md R261; the spec's decision D3, log 11). The record of the sinks is among what does not change: that the call
notifies nothing is the spec's decision D9 (log 12). -/
def Obligations.StoreValueWritesAtTheLatchAndMovesOn : Prop :=
  ∀ s : State, memRead (panelCall .storeValue s).2 s.latch = s.get .inp ∧
    (panelCall .storeValue s).2.latch = s.latch + 1#8 ∧
    OnlyCell s.latch s { (panelCall .storeValue s).2 with latch := s.latch }

/-- Entering a byte leaves it in IN, whatever IN held, and changes nothing else (60_exceptions.md R265). The record of the
sinks is among what does not change: that these calls notify nothing is the spec's decision D9 (log 12). -/
def Obligations.EnteringAByteLeavesItInIn : Prop :=
  ∀ (s : State) (v : Byte), panelCalls (enterByteCalls v) s = s.set .inp v

/-- Depositing bytes in RAM from address `a` on, and then the start address `p` in the cell 3: the bytes are in memory in
order, P is `p`, the latch is 4 and the halt flag is as it was (60_exceptions.md R265; 70_reset_and_hazards.md R283). -/
def Obligations.DepositedProgramIsInMemoryAndPIsSet : Prop :=
  ∀ (s : State) (a p : Byte) (vs : List Byte),
    (∀ j < vs.length, regAt (a + BitVec.ofNat 8 j) = none) →
    (∀ (j : Nat) (hj : j < vs.length),
      memRead (panelCalls (setLatchCalls a ++ depositCalls vs ++ setLatchCalls 3#8 ++ depositCalls [p]) s)
        (a + BitVec.ofNat 8 j) = vs[j]) ∧
    (panelCalls (setLatchCalls a ++ depositCalls vs ++ setLatchCalls 3#8 ++ depositCalls [p]) s).get .p = p ∧
    (panelCalls (setLatchCalls a ++ depositCalls vs ++ setLatchCalls 3#8 ++ depositCalls [p]) s).latch = 4#8 ∧
    (panelCalls (setLatchCalls a ++ depositCalls vs ++ setLatchCalls 3#8 ++ depositCalls [p]) s).halt = s.halt

/-! ### The Disassembler -/

/-- At a register's address the text is REG and the name, one byte, and the fetcher is not asked; elsewhere the bytes
consumed are the length of the decoded instruction, which is what the engine's fetch moves P by
(50_disassembler.md R212, R213; 95_test_vectors.md Q2; decisions D16 and D17, log 17). -/
def Obligations.DisassemblerConsumesWhatTheEngineFetches : Prop :=
  (∀ (a : Byte) (q : RegName) (f : Byte → Byte), regAt a = some q →
    disassemble a f = ("REG" ++ registerText q, 1)) ∧
  (∀ (a : Byte) (f : Byte → Byte), regAt a = none → (disassemble a f).2 = (decode (f a)).length) ∧
  ∀ s : State, regAt (s.get .p) = none →
    (fetch s).2.2.get .p = s.get .p + BitVec.ofNat 8 (disassemble (s.get .p) (memRead s)).2

/-- The disassembler depends on the fetcher at no more than two addresses, and on one where the instruction is one byte
long (50_disassembler.md R210). -/
def Obligations.DisassemblerReadsAtMostTwoBytes : Prop :=
  ∀ (mn : FunctionId → String) (a : Byte) (f g : Byte → Byte), f a = g a →
    ((decode (f a)).length = 2 → f (a + 1#8) = g (a + 1#8)) → disassembleWith mn a f = disassembleWith mn a g

/-- The condition symbols and the forms of the operand (50_disassembler.md R217, R219). -/
def Obligations.ConditionSymbolsAndOperandForms : Prop :=
  conditionText none = "UNC" ∧ conditionText (some .nzero) = "!=0" ∧ conditionText (some .zero) = "=0" ∧
  conditionText (some .neg) = "<0" ∧ conditionText (some .pos) = ">=0" ∧ conditionText (some .posNz) = ">0" ∧
  (∀ (d : Descriptor) (k : Byte),
    descriptorOperandText d (some k) = d.addressingMode.map fun m => operandText m k) ∧
  ∀ h m l : Fin 8, h.val < 4 →
    ∃ nnn : String, nnn = toString h.val ++ toString m.val ++ toString l.val ∧
      operandText .constant (opcodeByte h m l) = "#" ++ nnn ∧
      operandText .memory (opcodeByte h m l) =
        (match regAt (opcodeByte h m l) with
          | some q => registerText q
          | none => nnn) ∧
      operandText .indirect (opcodeByte h m l) = "(" ++ nnn ++ ")" ∧
      operandText .indexed (opcodeByte h m l) = nnn ++ ", X" ∧
      operandText .indirectIndexed (opcodeByte h m l) = "(" ++ nnn ++ "), X"
end

