-- ==== Sys2Proof/Laws/State.lean ====
section
/-! SUPPORT. One lemma per field per update of State. The registers are read through `State.get`; every lemma is in that
spelling. -/

namespace Sys2Proof.Machine

variable (s : State) (q q' : RegName) (v : Byte)

/-! ### Writing a register -/

theorem State.get_set : (s.set q v).get q' = if q' = q then v else s.get q' := by
  cases q <;> cases q' <;> rfl

@[simp] theorem State.get_set_self : (s.set q v).get q = v := by cases q <;> rfl

theorem State.get_set_ne (h : q' ≠ q) : (s.set q v).get q' = s.get q' := by rw [State.get_set, if_neg h]

@[simp] theorem State.set_halt : (s.set q v).halt = s.halt := by cases q <;> rfl
@[simp] theorem State.set_latch : (s.set q v).latch = s.latch := by cases q <;> rfl
@[simp] theorem State.set_budget : (s.set q v).budget = s.budget := by cases q <;> rfl
@[simp] theorem State.set_ram : (s.set q v).ram = s.ram := by cases q <;> rfl
@[simp] theorem State.set_trace : (s.set q v).trace = s.trace := by cases q <;> rfl
@[simp] theorem State.set_get : s.set q (s.get q) = s := by cases q <;> rfl

/-- A state is its registers and its five other fields. -/
theorem State.ext_get (s t : State) (hr : ∀ q, s.get q = t.get q) (hh : s.halt = t.halt) (hl : s.latch = t.latch)
    (hb : s.budget = t.budget) (hm : s.ram = t.ram) (ht : s.trace = t.trace) : s = t := by
  have ha := hr .a; have hb' := hr .b; have hx := hr .x; have hp := hr .p; have ho := hr .out
  have h1 := hr .oca; have h2 := hr .ocb; have h3 := hr .ocx; have hi := hr .inp
  cases s; cases t
  simp only [State.get] at *
  subst_vars
  rfl

/-! ### Writing RAM -/

variable (a : Byte)

@[simp] theorem writeByte_get : (writeByte s a v).get q = s.get q := by cases q <;> rfl
@[simp] theorem writeByte_halt : (writeByte s a v).halt = s.halt := rfl
@[simp] theorem writeByte_latch : (writeByte s a v).latch = s.latch := rfl
@[simp] theorem writeByte_budget : (writeByte s a v).budget = s.budget := rfl
@[simp] theorem writeByte_ram : (writeByte s a v).ram = Memory.write s.ram a.toNat v := rfl
@[simp] theorem writeByte_trace : (writeByte s a v).trace = s.trace := rfl

/-! ### The other updates -/

@[simp] theorem State.get_with_halt (b : Bool) : ({ s with halt := b } : State).get q = s.get q := by cases q <;> rfl
@[simp] theorem State.get_with_latch : ({ s with latch := v } : State).get q = s.get q := by cases q <;> rfl
@[simp] theorem State.get_with_budget (n : Int) : ({ s with budget := n } : State).get q = s.get q := by
  cases q <;> rfl
@[simp] theorem State.get_with_ram (m : Memory) : ({ s with ram := m } : State).get q = s.get q := by cases q <;> rfl

@[simp] theorem charge_get : (charge s).get q = s.get q := by cases q <;> rfl
@[simp] theorem charge_halt : (charge s).halt = s.halt := rfl
@[simp] theorem charge_latch : (charge s).latch = s.latch := rfl
@[simp] theorem charge_budget : (charge s).budget = s.budget - Config.stepCost := rfl
@[simp] theorem charge_ram : (charge s).ram = s.ram := rfl
@[simp] theorem charge_trace : (charge s).trace = s.trace := rfl

@[simp] theorem notify_get : (notify s).get q = s.get q := by cases q <;> rfl
@[simp] theorem notify_halt : (notify s).halt = s.halt := rfl
@[simp] theorem notify_latch : (notify s).latch = s.latch := rfl
@[simp] theorem notify_budget : (notify s).budget = s.budget := rfl
@[simp] theorem notify_ram : (notify s).ram = s.ram := rfl
@[simp] theorem notify_trace : (notify s).trace = .halt s.halt :: .out (s.get .out) :: s.trace := rfl

@[simp] theorem advance_p (n : Byte) : (advance s n).get .p = s.get .p + n := by simp [advance]
theorem advance_get_ne (n : Byte) (h : q ≠ .p) : (advance s n).get q = s.get q := by
  simp [advance, State.get_set, h]
@[simp] theorem advance_halt (n : Byte) : (advance s n).halt = s.halt := rfl
@[simp] theorem advance_latch (n : Byte) : (advance s n).latch = s.latch := rfl
@[simp] theorem advance_budget (n : Byte) : (advance s n).budget = s.budget := rfl
@[simp] theorem advance_ram (n : Byte) : (advance s n).ram = s.ram := rfl
@[simp] theorem advance_trace (n : Byte) : (advance s n).trace = s.trace := rfl

@[simp] theorem machineReset_get : (machineReset s).get q = 0#8 := by cases q <;> rfl
@[simp] theorem machineReset_halt : (machineReset s).halt = false := rfl
@[simp] theorem machineReset_latch : (machineReset s).latch = s.latch := rfl
@[simp] theorem machineReset_budget : (machineReset s).budget = s.budget := rfl
@[simp] theorem machineReset_ram : (machineReset s).ram = s.ram := rfl
@[simp] theorem machineReset_trace : (machineReset s).trace = s.trace := rfl

end Sys2Proof.Machine
end

