-- ==== Sys2Proof/Laws/Memory.lean ====
section
/-! SUPPORT. RAM: a read after a write, and the canonical form that every memory operation keeps. -/

namespace Sys2Proof.Machine

theorem Memory.lookup_write (m : Memory) (a b : Nat) (v : Byte) :
    Memory.lookup (Memory.write m a v) b = if b = a then some v else Memory.lookup m b := by
  induction m with
  | nil => rfl
  | cons c m ih =>
    obtain ⟨c, w⟩ := c
    by_cases h1 : a < c
    · simp [Memory.write, Memory.lookup, h1]
    · by_cases h2 : a = c
      · subst h2
        simp only [Memory.write, Memory.lookup, lt_irrefl, if_false, if_true]
        split <;> rfl
      · simp only [Memory.write, Memory.lookup, h1, h2, if_false, ih]
        by_cases h3 : b = c
        · subst h3
          simp [Ne.symm h2]
        · simp [h3]

theorem Memory.mem_write {m : Memory} {a : Nat} {v : Byte} {c : Host.Cell} (h : c ∈ Memory.write m a v) :
    c = (a, v) ∨ c ∈ m := by
  induction m with
  | nil => simpa [Memory.write] using h
  | cons d m ih =>
    obtain ⟨d, w⟩ := d
    simp only [Memory.write] at h
    split at h
    · simpa using h
    · split at h
      · rcases List.mem_cons.mp h with h | h
        · exact .inl h
        · exact .inr (List.mem_cons_of_mem _ h)
      · rcases List.mem_cons.mp h with h | h
        · exact .inr (h ▸ List.mem_cons_self)
        · exact (ih h).imp_right (List.mem_cons_of_mem _)

/-- Writing a RAM cell keeps the canonical form. -/
theorem Memory.write_wf {m : Memory} (hm : Memory.wf m) {a : Nat} (ha : isRamAddress a = true) (v : Byte) :
    Memory.wf (Memory.write m a v) := by
  refine ⟨?_, fun c hc => ?_⟩
  · obtain ⟨hp, -⟩ := hm
    induction m with
    | nil => simp [Memory.write]
    | cons d m ih =>
      obtain ⟨d, w⟩ := d
      obtain ⟨hd, hp⟩ := List.pairwise_cons.mp hp
      simp only [Memory.write]
      split
      · rename_i h
        refine List.pairwise_cons.mpr ⟨fun c hc => ?_, List.pairwise_cons.mpr ⟨hd, hp⟩⟩
        rcases List.mem_cons.mp hc with hc | hc
        · exact hc ▸ h
        · exact lt_trans h (hd c hc)
      · rename_i h
        split
        · rename_i h2
          exact List.pairwise_cons.mpr ⟨fun c hc => h2 ▸ hd c hc, hp⟩
        · rename_i h2
          refine List.pairwise_cons.mpr ⟨fun c hc => ?_, ih hp⟩
          rcases Memory.mem_write hc with hc | hc
          · subst hc; exact Nat.lt_of_le_of_ne (Nat.le_of_not_lt h) (Ne.symm h2)
          · exact hd c hc
  · rcases Memory.mem_write hc with hc | hc
    · exact hc ▸ ha
    · exact hm.2 c hc

theorem Memory.lookup_eq_none {m : Memory} {a : Nat} (h : ∀ c ∈ m, a < c.1) : Memory.lookup m a = none := by
  induction m with
  | nil => rfl
  | cons c m ih =>
    have := h c List.mem_cons_self
    simp only [Memory.lookup]
    rw [if_neg (by omega), ih fun d hd => h d (List.mem_cons_of_mem _ hd)]

/-- Two RAM lists in canonical form that hold the same bytes at every address are the same data. -/
theorem Memory.ext_lookup {m n : Memory} (hm : Memory.wf m) (hn : Memory.wf n)
    (h : ∀ a, Memory.lookup m a = Memory.lookup n a) : m = n := by
  replace hm := hm.1
  replace hn := hn.1
  induction m generalizing n with
  | nil =>
    cases n with
    | nil => rfl
    | cons c n => simpa [Memory.lookup] using h c.1
  | cons c m ih =>
    cases n with
    | nil => simpa [Memory.lookup] using h c.1
    | cons d n =>
      obtain ⟨hc, hm'⟩ := List.pairwise_cons.mp hm
      obtain ⟨hd, hn'⟩ := List.pairwise_cons.mp hn
      have hcd : c.1 = d.1 := by
        rcases lt_trichotomy c.1 d.1 with hlt | heq | hgt
        · have hnone := Memory.lookup_eq_none (m := d :: n) (a := c.1) fun e he => by
            rcases List.mem_cons.mp he with he | he
            · exact he ▸ hlt
            · exact lt_trans hlt (hd e he)
          have := h c.1
          rw [hnone] at this
          simp [Memory.lookup] at this
        · exact heq
        · have hnone := Memory.lookup_eq_none (m := c :: m) (a := d.1) fun e he => by
            rcases List.mem_cons.mp he with he | he
            · exact he ▸ hgt
            · exact lt_trans hgt (hc e he)
          have := h d.1
          rw [hnone] at this
          simp [Memory.lookup] at this
      have hv : c.2 = d.2 := by simpa [Memory.lookup, hcd] using h c.1
      have htail : m = n := ih (fun a => by
        by_cases ha : a = c.1
        · subst ha
          rw [Memory.lookup_eq_none hc, hcd, Memory.lookup_eq_none hd]
        · simpa [Memory.lookup, ha, ← hcd] using h a) hm' hn'
      rw [htail, show c = d from Prod.ext hcd hv]

/-- Every address that is not a register's is a RAM address: the map has no hole (20_memory.md R51). -/
theorem isRamAddress_of_regAt {a : Byte} (h : regAt a = none) : isRamAddress a.toNat = true := by
  revert a; decide

/-- A register has one address (10_state.md R20). -/
theorem regAt_injective {a b : Byte} {q : RegName} (ha : regAt a = some q) (hb : regAt b = some q) : a = b := by
  have hall : ∀ q : RegName, ∃ c : Byte, ∀ a : Byte, regAt a = some q → a = c := by
    intro q
    cases q
    · exact ⟨0, by decide⟩
    · exact ⟨1, by decide⟩
    · exact ⟨2, by decide⟩
    · exact ⟨3, by decide⟩
    · exact ⟨128, by decide⟩
    · exact ⟨129, by decide⟩
    · exact ⟨130, by decide⟩
    · exact ⟨131, by decide⟩
    · exact ⟨255, by decide⟩
  obtain ⟨c, hc⟩ := hall q
  rw [hc a ha, hc b hb]

end Sys2Proof.Machine
end

