-- ==== Sys2Proof/Laws/Ops.lean ====
section
/-! SUPPORT. The shared operations, each said once: what a read of memory depends on, what a write of memory changes, and
what the operand forms can do. -/

namespace Sys2Proof.Machine

/-! ### Memory through the overlay -/

theorem memRead_reg {s : State} {a : Byte} {q : RegName} (h : regAt a = some q) : memRead s a = s.get q := by
  simp [memRead, h]

theorem memRead_ram {s : State} {a : Byte} (h : regAt a = none) : memRead s a = readByte s a := by simp [memRead, h]

theorem memWrite_reg {s : State} {a v : Byte} {q : RegName} (h : regAt a = some q) : memWrite s a v = s.set q v := by
  simp [memWrite, h]

theorem memWrite_ram {s : State} {a v : Byte} (h : regAt a = none) : memWrite s a v = writeByte s a v := by
  simp [memWrite, h]

/-- What a read of memory depends on: the registers and RAM. -/
theorem memRead_congr {s t : State} (hr : ∀ q, s.get q = t.get q) (hm : s.ram = t.ram) (a : Byte) :
    memRead s a = memRead t a := by
  unfold memRead readByte
  rw [hm]
  split
  · exact hr _
  · rfl

/-- A read after a write: the byte written at that address, every other address as before (20_memory.md R53, R54). -/
theorem memRead_memWrite (s : State) (a b v : Byte) :
    memRead (memWrite s a v) b = if b = a then v else memRead s b := by
  unfold memWrite memRead
  rcases ha : regAt a with _ | q <;> rcases hb : regAt b with _ | q'
  · simp only [readByte, writeByte_ram, Memory.lookup_write]
    by_cases h : b = a
    · simp [h]
    · have : b.toNat ≠ a.toNat := fun h' => h (BitVec.eq_of_toNat_eq h')
      simp [h, this]
  · have : b ≠ a := by rintro rfl; simp [ha] at hb
    simp [this]
  · have : b ≠ a := by rintro rfl; simp [ha] at hb
    simp [readByte, this]
  · by_cases h : b = a
    · subst h
      rw [ha] at hb
      cases hb
      simp
    · have : q' ≠ q := by rintro rfl; exact h (regAt_injective hb ha)
      simp [State.get_set, h, this]

@[simp] theorem memRead_memWrite_self (s : State) (a v : Byte) : memRead (memWrite s a v) a = v := by
  simp [memRead_memWrite]

/-- A register after a write of memory: changed only by a write at its own address. -/
theorem memWrite_get (s : State) (a v : Byte) (q : RegName) :
    (memWrite s a v).get q = if regAt a = some q then v else s.get q := by
  unfold memWrite
  rcases ha : regAt a with _ | q'
  · simp
  · by_cases h : q = q'
    · subst h; simp
    · simp [State.get_set, h, Ne.symm h]

@[simp] theorem memWrite_halt (s : State) (a v : Byte) : (memWrite s a v).halt = s.halt := by
  unfold memWrite; split <;> simp
@[simp] theorem memWrite_latch (s : State) (a v : Byte) : (memWrite s a v).latch = s.latch := by
  unfold memWrite; split <;> simp
@[simp] theorem memWrite_budget (s : State) (a v : Byte) : (memWrite s a v).budget = s.budget := by
  unfold memWrite; split <;> simp
@[simp] theorem memWrite_trace (s : State) (a v : Byte) : (memWrite s a v).trace = s.trace := by
  unfold memWrite; split <;> simp

/-- Every write of memory keeps RAM in canonical form. -/
theorem memWrite_wf {s : State} (h : Memory.wf s.ram) (a v : Byte) : Memory.wf (memWrite s a v).ram := by
  unfold memWrite
  rcases ha : regAt a with _ | q
  · exact Memory.write_wf h (isRamAddress_of_regAt ha) v
  · simpa using h

/-- The value of a register after a write to another register is seen at its address. -/
theorem memRead_set (s : State) (q : RegName) (v b : Byte) :
    memRead (s.set q v) b = if regAt b = some q then v else memRead s b := by
  unfold memRead
  rcases hb : regAt b with _ | q'
  · simp [readByte]
  · by_cases h : q' = q
    · subst h; simp
    · simp [State.get_set, h]

/-! ### Operand forms -/

/-- A resolved read, said once (20_memory.md R65). -/
theorem resolveRead_eq (s : State) (m : Mode) (k : Byte) :
    resolveRead s m k = ((effAddr s m k).map (memRead s)).getD k := by
  unfold resolveRead; cases effAddr s m k <;> rfl

/-- What a resolved write can do: nothing in CONSTANT mode, else one write at the effective address (20_memory.md R66). -/
theorem resolveWrite_cases (s : State) (m : Mode) (k v : Byte) :
    (effAddr s m k = none ∧ resolveWrite s m k v = s) ∨
      ∃ a, effAddr s m k = some a ∧ resolveWrite s m k v = memWrite s a v := by
  unfold resolveWrite
  rcases effAddr s m k with _ | a
  · exact .inl ⟨rfl, rfl⟩
  · exact .inr ⟨a, rfl, rfl⟩

/-- Only CONSTANT mode has no effective address. -/
theorem effAddr_eq_none {s : State} {m : Mode} {k : Byte} : effAddr s m k = none ↔ m = .constant := by
  cases m <;> simp [effAddr]

/-! ### Writing a register operand -/

theorem bankReg_ne_p (r : Reg) : bankReg r ≠ .p := by cases r <;> decide

@[simp] theorem setReg_p (s : State) (r : Reg) (v : Byte) : (s.setReg r v).get .p = s.get .p := by
  simp [State.setReg, State.get_set, Ne.symm (bankReg_ne_p r)]
@[simp] theorem setReg_halt (s : State) (r : Reg) (v : Byte) : (s.setReg r v).halt = s.halt := by simp [State.setReg]
@[simp] theorem setReg_latch (s : State) (r : Reg) (v : Byte) : (s.setReg r v).latch = s.latch := by
  simp [State.setReg]
@[simp] theorem setReg_budget (s : State) (r : Reg) (v : Byte) : (s.setReg r v).budget = s.budget := by
  simp [State.setReg]
@[simp] theorem setReg_ram (s : State) (r : Reg) (v : Byte) : (s.setReg r v).ram = s.ram := by simp [State.setReg]
@[simp] theorem setReg_trace (s : State) (r : Reg) (v : Byte) : (s.setReg r v).trace = s.trace := by
  simp [State.setReg]

end Sys2Proof.Machine
end

