-- ==== Sys2Proof/Laws/Engine.lean ====
section
/-! SUPPORT. From a descriptor to its instruction, the fetch, and what a step and each meaning can do: one lemma for
each. -/

namespace Sys2Proof

/-- Every opcode byte has a descriptor of the shape of R101, and its function is not ROTL. -/
theorem decode_consistent (b : Byte) : (decode b).consistent = true ∧ (decode b).function ≠ .rotl := by
  revert b; decide +kernel

/-- A consistent one-byte descriptor is a well-formed one-byte instruction. -/
theorem toInstr_of_no_mode {d : Descriptor} (hd : d.consistent = true) (hr : d.function ≠ .rotl)
    (hm : d.addressingMode = none) :
    ∃ i, d.toInstr none = some i ∧ i.wellFormed = true ∧ i.operandByte = none := by
  rcases d with ⟨f, m, r, n, c, mk⟩
  subst hm
  cases f <;> cases r <;> cases n <;>
    simp_all [Descriptor.consistent, Descriptor.toInstr, Instr.wellFormed, Instr.operandByte]

/-- A consistent two-byte descriptor is, with any operand byte, a well-formed two-byte instruction holding that byte. -/
theorem toInstr_of_mode {d : Descriptor} (hd : d.consistent = true) (hm : d.addressingMode ≠ none) (k : Byte) :
    ∃ i, d.toInstr (some k) = some i ∧ i.wellFormed = true ∧ i.operandByte = some k := by
  rcases d with ⟨f, m, r, n, c, mk⟩
  cases f <;> cases m <;> cases r <;> cases n <;> cases c <;>
    simp_all [Descriptor.consistent, Descriptor.toInstr, Descriptor.jumpTest, Instr.wellFormed, Instr.operandByte]

end Sys2Proof

namespace Sys2Proof.Machine

@[simp] theorem onNext_next (s : State) (f : State → State) : onNext (.next s) f = .next (f s) := rfl

/-- A continued outcome is a next state exactly when the outcome was one. -/
theorem onNext_eq_next {o : Host.Outcome State Fault Refusal} {f : State → State} {t : State} :
    onNext o f = .next t ↔ ∃ u, o = .next u ∧ f u = t := by
  cases o <;> simp [onNext]

theorem advance_advance (s : State) (m n : Byte) : advance (advance s m) n = advance s (m + n) := by
  simp only [advance, State.set, State.get, add_assoc]

theorem memRead_advance {s : State} {n a : Byte} (h : a ≠ 3#8) : memRead (advance s n) a = memRead s a := by
  rw [advance, memRead_set, if_neg]
  intro h'
  exact h (regAt_injective h' (by decide))

/-- What the fetch yields: the instruction the next bytes decode to, and P past it
(40_engine_step.md R132 to R134). -/
theorem fetch_spec (s : State) :
    ∃ i, nextInstr s = some i ∧ i.wellFormed = true ∧ (fetch s).1 = decode (memRead s (s.get .p)) ∧
      (fetch s).1.toInstr (fetch s).2.1 = some i ∧ (fetch s).2.1 = i.operandByte ∧
      (fetch s).2.2 = advance s (BitVec.ofNat 8 i.length) := by
  obtain ⟨hc, hr⟩ := decode_consistent (memRead s (s.get .p))
  unfold fetch fetchOperand nextInstr
  simp only [decodeBytes, Descriptor.decoded]
  rcases hm : (decode (memRead s (s.get .p))).addressingMode with _ | m
  · obtain ⟨i, hi, hw, ho⟩ := toInstr_of_no_mode hc hr hm
    refine ⟨i, ?_, hw, rfl, hi, ho.symm, ?_⟩
    · rw [hi]
    · simp [Instr.length, ho]
  · obtain ⟨i, hi, hw, ho⟩ := toInstr_of_mode hc (by rw [hm]; simp) (memRead (advance s 1#8) (s.get .p + 1#8))
    refine ⟨i, ?_, hw, rfl, ?_, ?_, ?_⟩
    · simp only [hi]
    · simpa using hi
    · simpa using ho.symm
    · rw [advance_advance]; simp [Instr.length, ho]

/-- What a step can be: halted, or the next instruction executed past its own bytes, charged and notified. -/
theorem step_cases (s : State) :
    (s.halt = true ∧ step s = .next { s with budget := 0 }) ∨
      (s.halt = false ∧ ∃ i, nextInstr s = some i ∧ i.wellFormed = true ∧
        step s = onNext (exec i (advance s (BitVec.ofNat 8 i.length))) finishStep) := by
  cases hh : s.halt
  · refine .inr ⟨rfl, ?_⟩
    obtain ⟨i, hn, hw, hd, hi, -, ht⟩ := fetch_spec s
    refine ⟨i, hn, hw, ?_⟩
    have hr : (fetch s).1.function ≠ .rotl := hd ▸ (decode_consistent _).2
    simp only [step, engineStep, hh, executedStep, execute]
    rw [if_neg (by simp), if_neg hr, hi, ht]
  · exact .inl ⟨rfl, by simp [step, engineStep, hh, haltedStep]⟩

@[simp] theorem finishStep_get (s : State) (q : RegName) : (finishStep s).get q = s.get q := by simp [finishStep]
@[simp] theorem finishStep_halt (s : State) : (finishStep s).halt = s.halt := rfl
@[simp] theorem finishStep_latch (s : State) : (finishStep s).latch = s.latch := rfl
@[simp] theorem finishStep_budget (s : State) : (finishStep s).budget = s.budget - Config.stepCost := rfl
@[simp] theorem finishStep_ram (s : State) : (finishStep s).ram = s.ram := rfl
@[simp] theorem finishStep_trace (s : State) :
    (finishStep s).trace = .halt s.halt :: .out (s.get .out) :: s.trace := by simp [finishStep]

@[simp] theorem memRead_finishStep (s : State) (a : Byte) : memRead (finishStep s) a = memRead s a :=
  memRead_congr (by simp) (by simp) a

/-- The cost of a step is positive (40_engine_step.md R136). -/
theorem stepCost_pos : 0 < Config.stepCost := by unfold Config.stepCost; omega

/-! ### What a meaning can do -/

/-- What a jump can do: nothing, a new P, or the mark and a new P (43_jumps.md R170). -/
theorem jump_cases (s : State) (t : JumpTest) (m : JumpMode) (mark : Bool) (k : Byte) :
    (jumpTaken s t = false ∧ jump s t m mark k = s) ∨
      (jumpTaken s t = true ∧ mark = false ∧ jump s t m mark k = s.set .p (jumpTarget s m k)) ∨
      (jumpTaken s t = true ∧ mark = true ∧
        jump s t m mark k = (memWrite s (jumpTarget s m k) (s.get .p)).set .p (jumpTarget s m k + 1#8)) := by
  unfold jump
  cases jumpTaken s t <;> cases mark <;> simp

/-- What an instruction can do: halt, or at most one write of memory and then at most one write of a register, the rest of
the engine's state as before. Every instruction answers a next state. -/
theorem exec_cases (i : Instr) (s : State) :
    (i = .halt ∧ exec i s = .next { s with halt := true }) ∨
      ∃ u, (u = s ∨ ∃ a v, u = memWrite s a v) ∧ (exec i s = .next u ∨ ∃ q v, exec i s = .next (u.set q v)) := by
  have hjump : ∀ t m mark k, ∃ u, (u = s ∨ ∃ a v, u = memWrite s a v) ∧
      (jump s t m mark k = u ∨ ∃ q v, jump s t m mark k = u.set q v) := by
    intro t m mark k
    rcases jump_cases s t m mark k with ⟨-, h⟩ | ⟨-, -, h⟩ | ⟨-, -, h⟩ <;> rw [h]
    · exact ⟨s, .inl rfl, .inl rfl⟩
    · exact ⟨s, .inl rfl, .inr ⟨_, _, rfl⟩⟩
    · exact ⟨_, .inr ⟨_, _, rfl⟩, .inr ⟨_, _, rfl⟩⟩
  have hskip : ∀ w n k, ∃ u, (u = s ∨ ∃ a v, u = memWrite s a v) ∧
      (skipIf s w n k = u ∨ ∃ q v, skipIf s w n k = u.set q v) := by
    intro w n k
    refine ⟨s, .inl rfl, ?_⟩
    unfold skipIf
    split
    · exact .inr ⟨_, _, rfl⟩
    · exact .inl rfl
  cases i
  case halt => exact .inl ⟨rfl, rfl⟩
  case store r m k =>
    refine .inr ⟨resolveWrite s m k (s.reg r), ?_, .inl rfl⟩
    rcases resolveWrite_cases s m k (s.reg r) with ⟨-, h⟩ | ⟨a, -, h⟩
    · exact .inl h
    · exact .inr ⟨a, _, h⟩
  case set0 n k => exact .inr ⟨_, .inr ⟨_, _, rfl⟩, .inl rfl⟩
  case set1 n k => exact .inr ⟨_, .inr ⟨_, _, rfl⟩, .inl rfl⟩
  case noop => exact .inr ⟨s, .inl rfl, .inl rfl⟩
  case jpd t k => obtain ⟨u, hu, h⟩ := hjump t .memory false k; exact .inr ⟨u, hu, by simpa [exec, execJpd] using h⟩
  case jpi t k => obtain ⟨u, hu, h⟩ := hjump t .indirect false k; exact .inr ⟨u, hu, by simpa [exec, execJpi] using h⟩
  case jmd t k => obtain ⟨u, hu, h⟩ := hjump t .memory true k; exact .inr ⟨u, hu, by simpa [exec, execJmd] using h⟩
  case jmi t k => obtain ⟨u, hu, h⟩ := hjump t .indirect true k; exact .inr ⟨u, hu, by simpa [exec, execJmi] using h⟩
  case skp0 n k => obtain ⟨u, hu, h⟩ := hskip false n k; exact .inr ⟨u, hu, by simpa [exec, execSkp0] using h⟩
  case skp1 n k => obtain ⟨u, hu, h⟩ := hskip true n k; exact .inr ⟨u, hu, by simpa [exec, execSkp1] using h⟩
  all_goals exact .inr ⟨s, .inl rfl, .inr ⟨_, _, rfl⟩⟩

end Sys2Proof.Machine
end

