-- ==== Sys2Proof/Laws/Frames.lean ====
section
/-! SUPPORT. The frames of the two shared updates: writing a register, writing a byte of memory. -/

namespace Sys2Proof.Machine

theorem onlyRegister_refl (q : RegName) (s : State) : OnlyRegister q s s :=
  ⟨fun _ _ => rfl, fun _ _ => rfl, rfl, rfl, rfl, rfl⟩

/-- Writing a register changes that register and the cell at its address, and nothing else. -/
theorem onlyRegister_set (s : State) (q : RegName) (v : Byte) : OnlyRegister q s (s.set q v) :=
  ⟨fun q' h => by simp [State.get_set, h], fun a h => by rw [memRead_set, if_neg h], by simp [KeepsEngine]⟩

/-- Writing a byte of memory changes the cell there and the register that lies there, and nothing else. -/
theorem onlyCell_memWrite (s : State) (a v : Byte) : OnlyCell a s (memWrite s a v) :=
  ⟨fun q h => by rw [memWrite_get, if_neg h], fun b h => by rw [memRead_memWrite, if_neg h], by simp [KeepsEngine]⟩

/-- P lies at address 3 alone (20_memory.md R52). -/
theorem regAt_eq_p {a : Byte} : regAt a = some .p ↔ a = 3#8 := by revert a; decide

/-- The accesses of a running step, in terms of the next instruction. -/
theorem stepAccesses_eq {s : State} {i : Instr} (hh : s.halt = false) (hi : nextInstr s = some i) :
    stepAccesses s = .read (s.get .p) :: ((if i.operandByte.isSome then [.read (s.get .p + 1#8)] else []) ++
      execAccesses i (advance s (BitVec.ofNat 8 i.length))) := by
  obtain ⟨j, hj, -, -, ht, hk, hs⟩ := fetch_spec s
  rw [hi] at hj
  cases hj
  simp only [stepAccesses, hh]
  rw [if_neg (by simp), ht, hk, hs]
  cases i.operandByte <;> rfl

end Sys2Proof.Machine
end

