-- ==== Sys2Proof/Laws/PerInstr.lean ====
section
/-! SUPPORT. The family `EncodedLength`: an instruction's encoding has its length, one byte or two (30_encoding.md R91). -/

namespace Sys2Proof.Laws.EncodedLength

/-- The encoding has the instruction's length, which is 1 or 2. -/
def Statement (i : Instr) : Prop := (encode i).length = i.length ∧ (i.length = 1 ∨ i.length = 2)

theorem add (r : Reg) (m : Mode) (k : Byte) : Statement (.add r m k) := ⟨rfl, .inr rfl⟩
theorem sub (r : Reg) (m : Mode) (k : Byte) : Statement (.sub r m k) := ⟨rfl, .inr rfl⟩
theorem load (r : Reg) (m : Mode) (k : Byte) : Statement (.load r m k) := ⟨rfl, .inr rfl⟩
theorem store (r : Reg) (m : Mode) (k : Byte) : Statement (.store r m k) := ⟨rfl, .inr rfl⟩
theorem or (m : Mode) (k : Byte) : Statement (.or m k) := ⟨rfl, .inr rfl⟩
theorem and (m : Mode) (k : Byte) : Statement (.and m k) := ⟨rfl, .inr rfl⟩
theorem lneg (m : Mode) (k : Byte) : Statement (.lneg m k) := ⟨rfl, .inr rfl⟩
theorem jpd (t : JumpTest) (k : Byte) : Statement (.jpd t k) := ⟨rfl, .inr rfl⟩
theorem jpi (t : JumpTest) (k : Byte) : Statement (.jpi t k) := ⟨rfl, .inr rfl⟩
theorem jmd (t : JumpTest) (k : Byte) : Statement (.jmd t k) := ⟨rfl, .inr rfl⟩
theorem jmi (t : JumpTest) (k : Byte) : Statement (.jmi t k) := ⟨rfl, .inr rfl⟩
theorem skp0 (n : Fin 8) (k : Byte) : Statement (.skp0 n k) := ⟨rfl, .inr rfl⟩
theorem skp1 (n : Fin 8) (k : Byte) : Statement (.skp1 n k) := ⟨rfl, .inr rfl⟩
theorem set0 (n : Fin 8) (k : Byte) : Statement (.set0 n k) := ⟨rfl, .inr rfl⟩
theorem set1 (n : Fin 8) (k : Byte) : Statement (.set1 n k) := ⟨rfl, .inr rfl⟩
theorem sftl (r : Reg) (n : Fin 8) : Statement (.sftl r n) := ⟨rfl, .inl rfl⟩
theorem sftr (r : Reg) (n : Fin 8) : Statement (.sftr r n) := ⟨rfl, .inl rfl⟩
theorem rotr (r : Reg) (n : Fin 8) : Statement (.rotr r n) := ⟨rfl, .inl rfl⟩
theorem noop : Statement (.noop) := ⟨rfl, .inl rfl⟩
theorem halt : Statement (.halt) := ⟨rfl, .inl rfl⟩

end Sys2Proof.Laws.EncodedLength
end

