-- ==== Sys2Proof/Tests/Slice0.lean ====
section
/-! SUPPORT. Tests: the checks of WellFormed, words written out from the encoding rules, one-step vectors of
95_test_vectors.md (by their numbers V.., M.., X.., FP..), and for every statement with hypotheses a witness that meets
them. -/

namespace Sys2Proof.Machine.Tests

/-- What an outcome's next state shows; nothing on a fault or a refusal. -/
def after {α : Type} (o : Host.Outcome State Fault Refusal) (f : State → α) : Option α :=
  match o with
  | .next t => some (f t)
  | .fault _ => none
  | .refused _ => none

/-- The state after reset with P = 0o010, two bytes there and further RAM cells above them. -/
def at8 (b k : Byte) (more : Memory) : State := { State.reset with p := 8, ram := (8, b) :: (9, k) :: more }

/-! ### WellFormed: one ill-formed term for each check -/

theorem test_ill_formed_sftl_of_x : (Instr.sftl .x 1).wellFormed = false := by decide
theorem test_ill_formed_sftr_of_x : (Instr.sftr .x 1).wellFormed = false := by decide
theorem test_ill_formed_rotr_of_x : (Instr.rotr .x 1).wellFormed = false := by decide
theorem test_ill_formed_sftl_count_0 : (Instr.sftl .a 0).wellFormed = false := by decide
theorem test_ill_formed_sftr_count_0 : (Instr.sftr .a 0).wellFormed = false := by decide
theorem test_ill_formed_rotr_count_0 : (Instr.rotr .b 0).wellFormed = false := by decide
theorem test_ill_formed_sftl_count_5 : (Instr.sftl .b 5).wellFormed = false := by decide
theorem test_ill_formed_sftr_count_5 : (Instr.sftr .b 5).wellFormed = false := by decide
theorem test_ill_formed_rotr_count_7 : (Instr.rotr .a 7).wellFormed = false := by decide

/-- A descriptor of the ALU family without a register, a bit operation without a bit, a jump with a condition and no
register, a marked JPD, a LOAD without a mode, a shift of X: none has a shape of R101. -/
theorem test_inconsistent_descriptors :
    (⟨.add, some .memory, none, none, none, false⟩ : Descriptor).consistent = false ∧
    (⟨.skp0, some .memory, none, none, none, false⟩ : Descriptor).consistent = false ∧
    (⟨.jpd, some .memory, none, none, some .zero, false⟩ : Descriptor).consistent = false ∧
    (⟨.jpd, some .memory, none, none, none, true⟩ : Descriptor).consistent = false ∧
    (⟨.load, none, some .a, none, none, false⟩ : Descriptor).consistent = false ∧
    (⟨.or, some .memory, some .b, none, none, false⟩ : Descriptor).consistent = false ∧
    (⟨.sftl, none, some .x, some 1, none, false⟩ : Descriptor).consistent = false ∧
    (⟨.noop, none, none, some 1, none, false⟩ : Descriptor).consistent = false := by decide

/-! ### Words, written out as hi (2 bits), mid (3), low (3), then the operand byte (R90 to R99) -/

theorem test_decode_add : decodeBytes [0b00000100, 0b00010000] = .instr (.add .a .memory 0o020) [] := by decide
theorem test_decode_sub : decodeBytes [0b01001011, 0b00000001] = .instr (.sub .b .constant 0o001) [] := by decide
theorem test_decode_load : decodeBytes [0b10010111, 0b01000000] = .instr (.load .x .indirectIndexed 0o100) [] := by decide
theorem test_decode_store : decodeBytes [0b01011110, 0b01000000] = .instr (.store .b .indexed 0o100) [] := by decide
theorem test_decode_or : decodeBytes [0b11000101, 0b00101000] = .instr (.or .indirect 0o050) [] := by decide
theorem test_decode_and : decodeBytes [0b11010011, 0b00001111] = .instr (.and .constant 0o017) [] := by decide
theorem test_decode_lneg : decodeBytes [0b11011100, 0b00000000] = .instr (.lneg .memory 0o000) [] := by decide
theorem test_decode_jpd : decodeBytes [0b00100011, 0b00001000] = .instr (.jpd (.ifReg .a .nzero) 0o010) [] := by decide
theorem test_decode_jpi : decodeBytes [0b11101100, 0b01000000] = .instr (.jpi .unconditional 0o100) [] := by decide
theorem test_decode_jmd : decodeBytes [0b10110111, 0b00000011] = .instr (.jmd (.ifReg .x .posNz) 0o003) [] := by decide
theorem test_decode_jmi : decodeBytes [0b01111110, 0b00101000] = .instr (.jmi (.ifReg .b .pos) 0o050) [] := by decide
theorem test_decode_skp0 : decodeBytes [0b10001010, 0b01000000] = .instr (.skp0 1 0o100) [] := by decide
theorem test_decode_skp1 : decodeBytes [0b11111010, 0b00000000] = .instr (.skp1 7 0o000) [] := by decide
theorem test_decode_set0 : decodeBytes [0b00010010, 0b01000000] = .instr (.set0 2 0o100) [] := by decide
theorem test_decode_set1 : decodeBytes [0b01000010, 0b10000000] = .instr (.set1 0 0o200) [] := by decide
theorem test_decode_sftl : decodeBytes [0b10011001] = .instr (.sftl .a 3) [] := by decide
theorem test_decode_sftr : decodeBytes [0b11101001] = .instr (.sftr .b 1) [] := by decide
theorem test_decode_rotr : decodeBytes [0b01000001] = .instr (.rotr .a 4) [] := by decide
theorem test_decode_noop : decodeBytes [0b11001101, 0b11011100] = .instr .noop [0b11011100] := by decide
theorem test_decode_halt : decodeBytes [0b01000000] = .instr .halt [] := by decide

theorem test_decode_rejects_no_bytes : decodeBytes [] = .rejected .noBytes := by decide
theorem test_decode_rejects_a_missing_operand : decodeBytes [0o004] = .rejected .operandByteMissing := by decide
theorem test_decode_rejects_rotl :
    (⟨.rotl, none, some .a, some 1, none, false⟩ : Descriptor).decoded none [] = .rejected (.noInstruction .rotl) := by
  decide

/-- A hand-made JPD and a hand-made SET_1 without a mode stand for no instruction (log 18). -/
theorem test_decode_rejects_a_missing_mode :
    (⟨.jpd, none, none, none, none, false⟩ : Descriptor).toInstr (some 4) = none ∧
      (⟨.set1, none, none, some 1, none, false⟩ : Descriptor).toInstr (some 4) = none := by decide

/-- Table words: the opcode byte is bits 7..0, the operand byte bits 15..8, absent bits zero. -/
theorem test_table_words :
    decodeTableWord 16 0x1004 = some (.add .a .memory 0o020) ∧ decodeTableWord 8 0x04 = some (.add .a .memory 0) ∧
    decodeTableWord 8 0xFFF8 = some .noop := by decide

/-- The canonical encoding of an unconditional jump is the lowest alias (R104). -/
theorem test_encode : encode (.jpd .unconditional 4) = [0o343, 0o004] ∧ encode (.rotr .b 4) = [0o141] := by decide

/-! ### One step of each instruction -/

/-- V1: the source's end-to-end example. -/
theorem test_add_memory :
    after (step { at8 0o004 0o020 [(16, 3)] with a := 5 }) (fun t => (t.a, t.p)) = some (0o010, 0o012) := by decide
/-- V7: the address of ADD X uses X before X is written. -/
theorem test_add_indirect_indexed :
    after (step { at8 0o207 0o050 [(40, 0o100), (66, 0o011)] with x := 2 }) (fun t => t.x) = some 0o013 := by decide
/-- V8. -/
theorem test_sub_wraps : after (step (at8 0o013 0o001 [])) (fun t => t.a) = some 0o377 := by decide
/-- V10. -/
theorem test_sub_crosses_the_sign :
    after (step { at8 0o213 0o001 [] with x := 0o200 }) (fun t => (t.x, t.ocx)) = some (0o177, 0) := by decide
/-- V12: P as data is already advanced. -/
theorem test_load_of_p : after (step (at8 0o024 0o003 [])) (fun t => (t.a, t.p)) = some (0o012, 0o012) := by decide
/-- V13: the index wraps. -/
theorem test_load_indexed_wraps :
    after (step { at8 0o126 0o100 [(63, 0o055)] with x := 0o377 }) (fun t => (t.b, t.a)) = some (0o055, 0) := by decide
/-- V21: the address wraps to register A. -/
theorem test_store_indirect_indexed :
    after (step { at8 0o137 0o050 [(40, 0o377)] with b := 0o066, x := 1 }) (fun t => (t.a, t.b)) =
      some (0o066, 0o066) := by decide
/-- V17: a CONSTANT store does nothing. -/
theorem test_store_constant :
    after (step { at8 0o033 0o123 [] with a := 0o125 }) (fun t => (t.ram, t.a, t.p)) =
      some ([(8, 0o033), (9, 0o123)], 0o125, 0o012) := by decide
/-- V31. -/
theorem test_or_memory :
    after (step { at8 0o304 0o001 [] with a := 0o005, b := 0o012 }) (fun t => (t.a, t.b)) = some (0o017, 0o012) := by
  decide
/-- V35. -/
theorem test_and_indexed :
    after (step { at8 0o326 0o100 [(66, 0o074)] with a := 0o377, x := 2 }) (fun t => t.a) = some 0o074 := by decide
/-- V36: the source's boundary case. -/
theorem test_lneg_of_minus_128 :
    after (step { at8 0o333 0o200 [] with a := 0o123 }) (fun t => t.a) = some 0o200 := by decide
/-- V41: a load into A. -/
theorem test_lneg_of_b :
    after (step { at8 0o334 0o001 [] with a := 0o111, b := 0o177 }) (fun t => (t.a, t.b)) = some (0o201, 0o177) := by
  decide
/-- V55. -/
theorem test_jpd_taken : after (step { at8 0o245 0o100 [] with x := 0o200 }) (fun t => t.p) = some 0o100 := by decide
/-- V58: `>0` fails on 0. -/
theorem test_jpd_not_taken : after (step (at8 0o047 0o100 [])) (fun t => t.p) = some 0o012 := by decide
/-- V61: one dereference. -/
theorem test_jpi_dereferences_once :
    after (step (at8 0o354 0o100 [(34, 0o077), (64, 0o042)])) (fun t => t.p) = some 0o042 := by decide
/-- V62: through the advanced P. -/
theorem test_jpi_through_p : after (step (at8 0o354 0o003 [])) (fun t => t.p) = some 0o012 := by decide
/-- V64: the source's jump-and-mark test. -/
theorem test_jmd_marks :
    after (step (at8 0o364 0o100 [])) (fun t => (memRead t 0o100, t.p)) = some (0o012, 0o101) := by decide
/-- V67: the mark in IN, P wraps. -/
theorem test_jmd_wraps : after (step (at8 0o364 0o377 [])) (fun t => (t.inp, t.p)) = some (0o012, 0) := by decide
/-- V70: the target is taken before the mark is written. -/
theorem test_jmi_through_itself :
    after (step (at8 0o374 0o050 [(40, 0o050)])) (fun t => (memRead t 0o050, t.p)) = some (0o012, 0o051) := by decide
/-- V71. -/
theorem test_jmi_not_taken :
    after (step { at8 0o075 0o050 [(40, 0o100)] with a := 1 }) (fun t => (t.p, t.ram)) =
      some (0o012, [(8, 0o075), (9, 0o050), (40, 0o100)]) := by decide
/-- V80. -/
theorem test_skp0_skips : after (step (at8 0o202 0o100 [(64, 0o376)])) (fun t => t.p) = some 0o014 := by decide
/-- V86: bit 1 of the advanced P. -/
theorem test_skp0_of_p : after (step (at8 0o212 0o003 [])) (fun t => t.p) = some 0o012 := by decide
/-- V85: the skip wraps. -/
theorem test_skp1_wraps :
    after (step { State.reset with a := 1, p := 0o375, ram := [(253, 0o302), (254, 0)] }) (fun t => t.p) =
      some 0o001 := by decide
/-- V83. -/
theorem test_skp1_bit_clear : after (step { at8 0o372 0 [] with a := 0o177 }) (fun t => t.p) = some 0o012 := by decide
/-- V88. -/
theorem test_set0_of_a : after (step { at8 0o072 0 [] with a := 0o377 }) (fun t => t.a) = some 0o177 := by decide
/-- V93: a jump to itself. -/
theorem test_set0_of_p : after (step (at8 0o012 0o003 [])) (fun t => t.p) = some 0o010 := by decide
/-- V91. -/
theorem test_set1_of_ram :
    after (step (at8 0o172 0o100 [(64, 0o177)])) (fun t => memRead t 0o100) = some 0o377 := by decide
/-- V92: a jump. -/
theorem test_set1_of_p : after (step (at8 0o142 0o003 [])) (fun t => t.p) = some 0o032 := by decide
/-- V102. -/
theorem test_sftl_loses_bit_7 :
    after (step { at8 0o231 0 [] with a := 0o201 }) (fun t => (t.a, t.p)) = some (0o010, 0o011) := by decide
/-- V103. -/
theorem test_sftl_of_b :
    after (step { at8 0o251 0 [] with a := 1, b := 0o200 }) (fun t => (t.a, t.b)) = some (1, 0) := by decide
/-- V105: one place, whatever the count. -/
theorem test_sftr_count_2 : after (step { at8 0o021 0 [] with a := 0o200 }) (fun t => t.a) = some 0o300 := by decide
/-- V111: floor. -/
theorem test_sftr_rounds_down : after (step { at8 0o011 0 [] with a := 0o201 }) (fun t => t.a) = some 0o300 := by decide
/-- V114: the source's rotate test. -/
theorem test_rotr_source : after (step { at8 0o111 0 [] with a := 0o201 }) (fun t => t.a) = some 0o300 := by decide
/-- V117. -/
theorem test_rotr_of_b :
    after (step { at8 0o161 0 [] with b := 0o263 }) (fun t => (t.b, t.a)) = some (0o354, 0) := by decide
/-- S5: the ROTL arm, with a descriptor made by hand. -/
theorem test_rotl_arm :
    after (execute ⟨.rotl, none, some .a, some 1, none, false⟩ none { State.reset with a := 0o201 }) (fun t => t.a) =
      some 0o003 := by decide
/-- V42: a one-byte NOOP. -/
theorem test_noop_of_the_bitwise_group :
    after (step { at8 0o315 0o334 [] with a := 3 }) (fun t => (t.p, t.a)) = some (0o011, 3) := by decide
/-- V120: both sinks are called. -/
theorem test_noop_notifies :
    after (step { at8 0o200 0 [] with a := 0o123 }) (fun t => (t.p, t.trace)) = some (0o011, [.halt false, .out 0]) := by
  decide
/-- V124. -/
theorem test_halt : after (step (at8 0o170 0 [])) (fun t => (t.p, t.halt)) = some (0o011, true) := by decide
/-- V130: the first step after reset. -/
theorem test_first_step_after_reset :
    after (step State.reset) (fun t => (t.p, t.halt, t.trace)) = some (1, true, [.halt true, .out 0]) := by decide
/-- V132: opcode from X, the operand byte is P at that moment. -/
theorem test_fetch_from_registers :
    after (step { State.reset with p := 2, x := 0o123 }) (fun t => (t.b, t.p)) = some (3, 4) := by decide
/-- V134: an instruction across the end of the address space. -/
theorem test_fetch_wraps :
    after (step { State.reset with p := 0o376, inp := 0o100, ram := [(254, 0o344)] }) (fun t => t.p) = some 0o100 := by
  decide
/-- V140: a halted step. -/
theorem test_halted_step :
    after (step { at8 0o003 0 [] with halt := true, budget := 7 }) (fun t => (t.p, t.budget, t.trace)) =
      some (0o010, 0, []) := by decide

/-! ### The resolver, the front panel, the disassembler -/

/-- M5, M6, M9, on the state of section 3. -/
theorem test_resolver :
    (fun s => (resolveRead s .indexed 0o050, resolveRead s .indirectIndexed 0o050, jumpTarget s .indirect 0o050))
      { State.reset with x := 2, ram := [(40, 0o060), (42, 0o033), (48, 7), (50, 0o044)] } = (0o033, 0o044, 0o060) := by
  decide
/-- FP3c: a deposit at address 255 and the wrap of the latch. -/
theorem test_store_value_wraps :
    (fun t => (t.inp, t.latch)) (panelCall .storeValue { State.reset with latch := 0o377, inp := 0o111 }).2 =
      (0o111, 0) := by decide
/-- FP3f: `set_halt` notifies even without a change. -/
theorem test_set_halt_notifies :
    (panelCall (.setHalt false) { State.reset with out := 0o012 }).2.trace = [.halt false, .out 0o012] := by decide
/-- FP3e, and no notification. -/
theorem test_read_value :
    (fun t => (t.out, t.trace)) (panelCall .readValue { State.reset with latch := 0, a := 0o077 }).2 = (0o077, []) := by
  decide
/-- R220, rows 4, 14, 16, 20 and 28. -/
theorem test_disassembler_rows :
    disassemble 8 (fun a => if a = 8 then 0o227 else 0o100) = ("LOAD X (100), X", 2) ∧
    disassemble 8 (fun a => if a = 8 then 0o267 else 0o003) = ("JMD X >0 P", 2) ∧
    disassemble 8 (fun a => if a = 8 then 0o372 else 0o000) = ("SKP_1 b7 A", 2) ∧
    disassemble 8 (fun _ => 0o001) = ("SFTR4", 1) ∧
    disassemble 255 (fun _ => 0) = ("REGIN", 1) := by decide +kernel
/-- X1, X9, X10. -/
theorem test_disassembler_corners :
    disassemble 254 (fun a => if a = 254 then 0o344 else 0o100) = ("JPD UNC 100", 2) ∧
    disassemble 4 (fun a => if a = 4 then 0o033 else 0o123) = ("STORE #123 A", 2) ∧
    disassemble 4 (fun a => if a = 4 then 0o377 else 0o003) = ("JMI UNC (003)", 2) := by decide +kernel

/-! ### Witnesses: for each statement with hypotheses, a state and operands that meet them, at the ends of each range -/

theorem witness_DecodeOfEncodeIsTheInstruction :
    (Instr.sftr .b 4).wellFormed = true ∧ (Instr.rotr .a 1).wellFormed = true ∧
      (Instr.jmi (.ifReg .x .posNz) 0o377).wellFormed = true := by decide

theorem witness_StepRunsTheDecodedInstruction :
    (at8 0o004 0o020 []).halt = false ∧ nextInstr (at8 0o004 0o020 []) = some (.add .a .memory 0o020) := by decide

theorem witness_PlacedWordIsTheNextInstruction :
    decodeTableWord 16 0x1004 = some (.add .a .memory 0o020) ∧ decodeTableWord 8 0x78 = some .halt := by decide

/-- For each clause and each function it names, a descriptor that lacks the field and has all others. -/
theorem witness_MissingFieldIsTheInternalFault :
    (∀ f ∈ [FunctionId.add, .sub, .load, .store, .or, .and, .lneg, .sftl, .sftr, .rotl, .rotr],
      (⟨f, some .memory, none, some 1, none, false⟩ : Descriptor).registerOperand = none ∧
        (⟨f, some .memory, none, some 1, none, false⟩ : Descriptor).function = f) ∧
    (∀ f ∈ [FunctionId.jpd, .jpi, .jmd, .jmi],
      (⟨f, some .memory, none, none, some .zero, false⟩ : Descriptor).registerOperand = none ∧
        (⟨f, some .memory, none, none, some .zero, false⟩ : Descriptor).jumpCondition ≠ none) ∧
    (∀ f ∈ [FunctionId.sftl, .sftr, .rotl, .rotr, .skp0, .skp1, .set0, .set1],
      (⟨f, some .memory, some .a, none, none, false⟩ : Descriptor).bitPosition = none) ∧
    ∀ f ∈ [FunctionId.add, .sub, .load, .store, .or, .and, .lneg, .jpd, .jpi, .jmd, .jmi, .skp0, .skp1, .set0, .set1],
      (⟨f, none, some .a, some 1, none, false⟩ : Descriptor).addressingMode = none := by decide

theorem witness_StepKeepsCanonicalMemoryAndPairedRecord :
    StateInv (at8 0o034 0o376 []) ∧ Completes (step (at8 0o034 0o376 [])) :=
  ⟨by unfold StateInv; decide, ⟨_, rfl⟩⟩

theorem witness_HaltedStepOnlyEmptiesTheBudget : ({ State.reset with halt := true, budget := 7 } : State).halt = true := rfl

theorem witness_ExecutedStepChargesAndNotifies :
    (at8 0o102 0o200 []).halt = false ∧ Completes (step (at8 0o102 0o200 [])) := ⟨rfl, _, rfl⟩

theorem witness_OnlyHaltSetsTheHaltFlag :
    Completes (step (at8 0o170 0 [])) ∧ nextInstr (at8 0o170 0 []) = some .halt ∧
      Completes (step (at8 0o200 0 [])) ∧ nextInstr (at8 0o200 0 []) = some .noop :=
  ⟨⟨_, rfl⟩, by decide, ⟨_, rfl⟩, by decide⟩

theorem witness_CarryCellsChangeOnlyByAWriteAtTheirAddress :
    RegName.oca ∈ [RegName.oca, .ocb, .ocx] ∧
      after (step { at8 0o034 0o201 [] with a := 5 }) (fun t => t.get .oca) = some 5 ∧
      State.get { at8 0o034 0o201 [] with a := 5 } .oca = 0 := by decide

/-- ADD A from RAM; the addresses 20, beside the accesses, and 1, a register that is no destination. -/
theorem witness_StepChangesOnlyWhatItWrites :
    (at8 0o004 0o020 []).halt = false ∧ nextInstr (at8 0o004 0o020 []) = some (.add .a .memory 0o020) ∧
      Completes (step (at8 0o004 0o020 [])) ∧ Access.write 20 ∉ stepAccesses (at8 0o004 0o020 []) ∧
      regAt 20 ≠ some .p ∧ regAt 1 ≠ some .p ∧
      ∀ r, destination (.add .a .memory 0o020) = some r → regAt 20 ≠ some (bankReg r) ∧ regAt 1 ≠ some (bankReg r) := by
  refine ⟨rfl, by decide, ⟨_, rfl⟩, by decide, by decide, by decide, fun r hr => ?_⟩
  cases hr
  decide

/-- Two RAMs that agree on the cells an ADD reads and differ at 20. -/
theorem witness_StepDependsOnlyOnTheCellsItReads :
    (∀ a, Access.read a ∈ stepAccesses (at8 0o004 0o020 [(16, 3)]) →
      memRead { at8 0o004 0o020 [(16, 3)] with ram := [(8, 0o004), (9, 0o020), (16, 3), (20, 1)] } a =
        memRead (at8 0o004 0o020 [(16, 3)]) a) ∧
      ([(8, 0o004), (9, 0o020), (16, 3), (20, 1)] : Memory) ≠ (at8 0o004 0o020 [(16, 3)]).ram := by
  constructor
  · have h : stepAccesses (at8 0o004 0o020 [(16, 3)]) = [.read 8, .read 9, .read 16] := by decide
    intro a ha
    rw [h] at ha
    simp only [List.mem_cons, Access.read.injEq, List.not_mem_nil, or_false] at ha
    rcases ha with rfl | rfl | rfl <;> decide
  · decide

theorem witness_RegAtIsTheTableOfNineAddresses :
    ∀ a ∈ [4#8, 127#8, 132#8, 254#8], a ∉ [0#8, 1#8, 2#8, 3#8, 128#8, 129#8, 130#8, 131#8, 255#8] := by decide

theorem witness_RegisterAddressesNeverReachRam :
    regAt 0 = some .a ∧ regAt 3 = some .p ∧ regAt 128 = some .out ∧ regAt 131 = some .ocx ∧ regAt 255 = some .inp := by
  decide

theorem witness_MemoryReadsTheLastByteWritten :
    regAt 4 = none ∧ regAt 127 = none ∧ regAt 132 = none ∧ regAt 254 = none := by decide

/-- The first clause in INDIRECT mode; the premise of each of the two others met by a hit (the write is to X, to the
pointer itself) and by a miss. -/
theorem witness_ResolverRoundTripWithItsSideCondition :
    (Mode.indirect ≠ .constant ∧
      effAddr (resolveWrite (at8 0 0 [(40, 48)]) .indirect 40 0o123) .indirect 40 =
        effAddr (at8 0 0 [(40, 48)]) .indirect 40) ∧
    ((0 : Byte) + State.get { State.reset with x := 2 } .x = 2 ∧ (2 : Byte) = State.get { State.reset with x := 2 } .x) ∧
    (1 : Byte) + State.get { State.reset with x := 2 } .x ≠ 2 ∧
    memRead (at8 0 0 [(40, 40)]) 40 = 40 ∧ memRead (at8 0 0 [(40, 48)]) 40 ≠ 40 := by decide

theorem witness_StoreWritesOnlyItsEffectiveAddress :
    effAddr (at8 0 0 []) .memory 0o377 = some 255 ∧ effAddr (at8 0 0 [(40, 48)]) .indirect 40 = some 48 ∧
      effAddr { at8 0 0 [] with x := 2 } .indexed 0o376 = some 0 ∧
      effAddr { at8 0 0 [(40, 48)] with x := 2 } .indirectIndexed 40 = some 50 ∧
      effAddr (at8 0 0 []) .constant 40 = none := by decide

/-- The effective address 3 in each of the four modes that have one. -/
theorem witness_StoreToAddressThreeJumps :
    ((at8 0o034 3 []).halt = false ∧ nextInstr (at8 0o034 3 []) = some (.store .a .memory 3) ∧
      effAddr (advance (at8 0o034 3 []) 2) .memory 3 = some 3) ∧
    (nextInstr (at8 0o035 40 [(40, 3)]) = some (.store .a .indirect 40) ∧
      effAddr (advance (at8 0o035 40 [(40, 3)]) 2) .indirect 40 = some 3) ∧
    (nextInstr { at8 0o036 1 [] with x := 2 } = some (.store .a .indexed 1) ∧
      effAddr (advance { at8 0o036 1 [] with x := 2 } 2) .indexed 1 = some 3) ∧
    (nextInstr { at8 0o037 40 [(40, 255)] with x := 4 } = some (.store .a .indirectIndexed 40) ∧
      effAddr (advance { at8 0o037 40 [(40, 255)] with x := 4 } 2) .indirectIndexed 40 = some 3) := by decide

/-- A store into the byte after it in each of the four modes that have an address, and one that goes to P itself. -/
theorem witness_StoreIntoTheNextOpcodeIsFetched :
    ((at8 0o034 0o012 []).halt = false ∧ nextInstr (at8 0o034 0o012 []) = some (.store .a .memory 0o012) ∧
      ∃ t, step (at8 0o034 0o012 []) = .next t ∧
        effAddr (advance (at8 0o034 0o012 []) 2) .memory 0o012 = some (t.get .p)) ∧
    (nextInstr (at8 0o035 40 [(40, 10)]) = some (.store .a .indirect 40) ∧
      ∃ t, step (at8 0o035 40 [(40, 10)]) = .next t ∧
        effAddr (advance (at8 0o035 40 [(40, 10)]) 2) .indirect 40 = some (t.get .p)) ∧
    (nextInstr { at8 0o036 8 [] with x := 2 } = some (.store .a .indexed 8) ∧
      ∃ t, step { at8 0o036 8 [] with x := 2 } = .next t ∧
        effAddr (advance { at8 0o036 8 [] with x := 2 } 2) .indexed 8 = some (t.get .p)) ∧
    (nextInstr { at8 0o037 40 [(40, 8)] with x := 2 } = some (.store .a .indirectIndexed 40) ∧
      ∃ t, step { at8 0o037 40 [(40, 8)] with x := 2 } = .next t ∧
        effAddr (advance { at8 0o037 40 [(40, 8)] with x := 2 } 2) .indirectIndexed 40 = some (t.get .p)) ∧
    nextInstr { at8 0o034 3 [] with a := 3 } = some (.store .a .memory 3) ∧
      ∃ t, step { at8 0o034 3 [] with a := 3 } = .next t ∧
        effAddr (advance { at8 0o034 3 [] with a := 3 } 2) .memory 3 = some (t.get .p) :=
  ⟨⟨rfl, by decide, _, rfl, rfl⟩, ⟨by decide, _, rfl, rfl⟩, ⟨by decide, _, rfl, rfl⟩, ⟨by decide, _, rfl, rfl⟩,
    by decide, _, rfl, rfl⟩

/-- A jump taken with and without a register, and one not taken, for the four jumps' clauses. -/
theorem witness_JpdJumpsToItsOperandByte :
    jumpTaken State.reset .unconditional = true ∧ jumpTaken State.reset (.ifReg .x .pos) = true ∧
      jumpTaken State.reset (.ifReg .x .posNz) = false := by decide

theorem witness_JpiJumpsThroughItsPointer :
    jumpTaken State.reset (.ifReg .a .zero) = true ∧ jumpTaken State.reset (.ifReg .a .nzero) = false := by decide

/-- The mark cell of a taken jump in RAM and at P; the addresses beside it. -/
theorem witness_JmdMarksAndJumps :
    jumpTaken State.reset (.ifReg .b .zero) = true ∧ jumpTaken State.reset (.ifReg .b .neg) = false ∧
      (64#8 ≠ 3#8 ∧ regAt 64 ≠ some .a) ∧ (65#8 ≠ 64#8 ∧ 65#8 ≠ 3#8) ∧ RegName.a ≠ .p := by decide

theorem witness_JmiMarksAndJumpsThroughItsPointer :
    jumpTaken { State.reset with x := 0o200 } (.ifReg .x .neg) = true ∧ jumpTaken State.reset (.ifReg .x .neg) = false ∧
      memRead (at8 0 0 [(40, 64)]) 40 ≠ 3 := by decide

/-- The source's subroutine: the call, and the return the next step fetches. -/
theorem witness_SubroutineCallReturnsPastTheJump :
    64#8 ≠ 3#8 ∧ (at8 0o364 0o100 [(65, 0o354), (66, 0o100)]).halt = false ∧
      nextInstr (at8 0o364 0o100 [(65, 0o354), (66, 0o100)]) = some (.jmd .unconditional 64) ∧
      after (step (at8 0o364 0o100 [(65, 0o354), (66, 0o100)])) nextInstr =
        some (some (.jpi .unconditional 64)) := by decide

theorem witness_FailedConditionalJumpTouchesNothing :
    holds .nzero ((at8 0o043 0o100 []).reg .a) = false ∧
      nextInstr (at8 0o043 0o100 []) = some (.jpd (.ifReg .a .nzero) 0o100) ∧
      nextInstr (at8 0o053 0o100 []) = some (.jpi (.ifReg .a .nzero) 0o100) ∧
      nextInstr (at8 0o063 0o100 []) = some (.jmd (.ifReg .a .nzero) 0o100) ∧
      nextInstr (at8 0o073 0o100 []) = some (.jmi (.ifReg .a .nzero) 0o100) := by decide

theorem witness_SftlMovesBitsUp :
    Reg.shiftable .a = true ∧ Reg.shiftable .b = true ∧ validPlaces 1 = true ∧ validPlaces 4 = true := by decide

theorem witness_RotrRotatesRight :
    Reg.shiftable .a = true ∧ Reg.shiftable .b = true ∧ validPlaces 1 = true ∧ validPlaces 4 = true := by decide

/-- The bytes of SFTR in the group `hi = 3`, and a hand-made ROTL descriptor with the least and the greatest count. -/
theorem witness_RotlIsADispatchArmWithoutAnOpcode :
    lowField 0o301 = 1 ∧ hiField 0o301 = 3 ∧ lowField 0o371 = 1 ∧ hiField 0o371 = 3 ∧
      (⟨.rotl, none, some .a, some 1, none, false⟩ : Descriptor).function = .rotl ∧
      (⟨.rotl, none, some .b, some 4, none, false⟩ : Descriptor).bitPosition = some 4 := by decide

theorem witness_NoopOnlyAdvances :
    (0o200#8 &&& 0x87#8 = 0x80#8 ∧ memRead (at8 0o200 0 []) 8 = 0o200) ∧
      (0o370#8 &&& 0x87#8 = 0x80#8 ∧ memRead (at8 0o370 0 []) 8 = 0o370) ∧
      0xCF#8 ∈ [0xCB#8, 0xCC#8, 0xCD#8, 0xCE#8, 0xCF#8] ∧ (at8 0o317 0 []).halt = false ∧
      memRead (at8 0o317 0 []) ((at8 0o317 0 []).get .p) = 0xCF := by decide

theorem witness_HaltSetsTheFlagAndAdvances :
    0o170#8 &&& 0x87#8 = 0#8 ∧ (at8 0o170 0 []).halt = false ∧
      memRead (at8 0o170 0 []) ((at8 0o170 0 []).get .p) = 0o170 := by decide

theorem witness_BurstReturnsWithTheBudgetSpent :
    ({ State.reset with halt := true } : State).halt = true ∧ (0 : Int) < 1 := by decide

/-- Deposits at both ends of both bands of RAM. -/
theorem witness_DepositedProgramIsInMemoryAndPIsSet :
    (∀ j < [0o023#8, 0o052#8, 0o000#8].length, regAt (4#8 + BitVec.ofNat 8 j) = none) ∧
      (∀ j < [0o023#8, 0o052#8].length, regAt (126#8 + BitVec.ofNat 8 j) = none) ∧
      (∀ j < [0o023#8].length, regAt (132#8 + BitVec.ofNat 8 j) = none) ∧
      ∀ j < [0o023#8].length, regAt (254#8 + BitVec.ofNat 8 j) = none := by decide

theorem witness_DisassemblerConsumesWhatTheEngineFetches :
    regAt 255 = some .inp ∧ regAt 254 = none ∧ regAt ((at8 0 0 []).get .p) = none := by decide

/-- Two fetchers that agree on the two bytes of an instruction, and on the one byte of another. -/
theorem witness_DisassemblerReadsAtMostTwoBytes :
    (decode 0o004).length = 2 ∧ (decode 0o200).length = 1 ∧
      (fun a : Byte => if a = 8 then 0o004#8 else 0o020#8) 8 = (fun a : Byte => if a = 8 then 0o004#8 else a + 7) 8 ∧
      (fun a : Byte => if a = 8 then 0o004#8 else 0o020#8) (8 + 1) =
        (fun a : Byte => if a = 8 then 0o004#8 else a + 7) (8 + 1) := by decide

theorem witness_SimplePanelCalls : RegName.a ≠ .inp ∧ RegName.out ≠ .inp ∧ 254#8 ≠ 255#8 ∧ 0#8 ≠ 255#8 := by decide

theorem witness_FirstStepAfterResetHalts : RegName.a ≠ .p ∧ RegName.inp ≠ .p := by decide

theorem witness_ConditionSymbolsAndOperandForms : (0 : Fin 8).val < 4 ∧ (3 : Fin 8).val < 4 := by decide

end Sys2Proof.Machine.Tests
end

section
/-! PROOFS. The frame of a step on memory (10_state.md R23, R27, R30; 20_memory.md R71), and the invariant at reset. -/

namespace Sys2Proof.Machine

/-- `StateInv` of the state after reset: its RAM list and its record are both empty.
Settles O12. -/
theorem resetHasCanonicalMemoryAndPairedRecord : Obligations.ResetHasCanonicalMemoryAndPairedRecord := by
  unfold Obligations.ResetHasCanonicalMemoryAndPairedRecord
  have hram : Memory.wf State.reset.ram := ⟨List.Pairwise.nil, fun _ hc => absurd hc List.not_mem_nil⟩
  have htrace : pairedTrace State.reset.trace = true := rfl
  exact ⟨hram, htrace⟩

/-! ### What each shared update leaves as it reads -/

theorem memRead_memWrite_ne {s : State} {a b : Byte} (h : b ≠ a) (v : Byte) :
    memRead (memWrite s a v) b = memRead s b := by
  rw [memRead_memWrite, if_neg h]

theorem memRead_set_ne {s : State} {q : RegName} {b : Byte} (h : regAt b ≠ some q) (v : Byte) :
    memRead (s.set q v) b = memRead s b := by
  rw [memRead_set, if_neg h]

theorem memRead_setReg_ne {s : State} {r : Reg} {b : Byte} (h : regAt b ≠ some (bankReg r)) (v : Byte) :
    memRead (s.setReg r v) b = memRead s b :=
  memRead_set_ne h v

theorem memRead_advance_of_regAt_ne_p {s : State} {b : Byte} (h : regAt b ≠ some .p) (n : Byte) :
    memRead (advance s n) b = memRead s b :=
  memRead_set_ne h _

@[simp] theorem memRead_with_halt (s : State) (h : Bool) (b : Byte) :
    memRead { s with halt := h } b = memRead s b :=
  memRead_congr (by simp) rfl b

/-- The one cell a resolved write can change is the one its access list names (20_memory.md R66, R71). -/
theorem memRead_resolveWrite_of_not_write {s : State} {m : Mode} {k b : Byte}
    (hw : Access.write b ∉ resolveWriteAccesses s m k) (v : Byte) :
    memRead (resolveWrite s m k v) b = memRead s b := by
  rcases resolveWrite_cases s m k v with ⟨-, heq⟩ | ⟨a, ha, heq⟩ <;> rw [heq]
  have hne : b ≠ a := by
    rintro rfl
    exact hw (by simp [resolveWriteAccesses, ha])
  exact memRead_memWrite_ne hne v

/-- A jump writes P and, when it marks, the cell its access list names (43_jumps.md R170). -/
theorem memRead_jump_of_not_write {s : State} {t : JumpTest} {m : JumpMode} {mark : Bool} {k b : Byte}
    (hw : Access.write b ∉ jumpAccesses s t m mark k) (hp : regAt b ≠ some .p) :
    memRead (jump s t m mark k) b = memRead s b := by
  rcases jump_cases s t m mark k with ⟨-, heq⟩ | ⟨-, -, heq⟩ | ⟨htaken, hmark, heq⟩ <;> rw [heq]
  · exact memRead_set_ne hp _
  · have hne : b ≠ jumpTarget s m k := by
      rintro rfl
      exact hw (by simp [jumpAccesses, htaken, hmark])
    rw [memRead_set_ne hp, memRead_memWrite_ne hne]

/-- A skip writes P alone (44_bit_skip_set.md R186, R187). -/
theorem memRead_skipIf {s : State} {b : Byte} (hp : regAt b ≠ some .p) (wanted : Bool) (n : Fin 8) (k : Byte) :
    memRead (skipIf s wanted n k) b = memRead s b := by
  unfold skipIf
  split
  · exact memRead_advance_of_regAt_ne_p hp _
  · rfl

/-! ### The frame of an instruction and of a step -/

/-- The frame of an instruction's own effect: an address it does not write, and that is neither P's nor the destination
register's, reads as before. The cases are the three ways to write: the destination register, P, a cell of memory. -/
theorem exec_frame (i : Instr) (s : State) {b : Byte} (hw : Access.write b ∉ execAccesses i s)
    (hp : regAt b ≠ some .p) (hd : ∀ r, destination i = some r → regAt b ≠ some (bankReg r)) :
    ∃ u, exec i s = .next u ∧ memRead u b = memRead s b := by
  cases i with
  | add | sub | load | or | and | lneg | sftl | sftr | rotr => exact ⟨_, rfl, memRead_setReg_ne (hd _ rfl) _⟩
  | jpd | jpi | jmd | jmi => exact ⟨_, rfl, memRead_jump_of_not_write hw hp⟩
  | skp0 | skp1 => exact ⟨_, rfl, memRead_skipIf hp _ _ _⟩
  | store => exact ⟨_, rfl, memRead_resolveWrite_of_not_write hw _⟩
  | set0 n k | set1 n k =>
    have hne : b ≠ k := by
      rintro rfl
      exact hw (by simp [execAccesses])
    exact ⟨_, rfl, memRead_memWrite_ne hne _⟩
  | noop => exact ⟨_, rfl, rfl⟩
  | halt => exact ⟨_, rfl, memRead_with_halt s true b⟩

/-- The writes of an instruction's own effect are among the accesses of the step that runs it. -/
theorem write_mem_stepAccesses {s : State} {i : Instr} {b : Byte} (hh : s.halt = false) (hi : nextInstr s = some i)
    (hw : Access.write b ∈ execAccesses i (advance s (BitVec.ofNat 8 i.length))) :
    Access.write b ∈ stepAccesses s := by
  rw [stepAccesses_eq hh hi]
  exact List.mem_cons_of_mem _ (List.mem_append_right _ hw)

/-- The step of a running machine as the effect of its next instruction, past the instruction's own bytes. -/
theorem step_of_nextInstr {s : State} {i : Instr} (hh : s.halt = false) (hi : nextInstr s = some i) :
    step s = onNext (exec i (advance s (BitVec.ofNat 8 i.length))) finishStep := by
  rcases step_cases s with ⟨hh', -⟩ | ⟨-, j, hj, -, hstep⟩
  · simp [hh] at hh'
  · obtain rfl : i = j := Option.some.inj (hi.symm.trans hj)
    exact hstep

/-- The fetch writes P alone, the instruction's effect has the frame `exec_frame`, and the charge and the notifications
write no memory. Settles O18. -/
theorem stepChangesOnlyWhatItWrites : Obligations.StepChangesOnlyWhatItWrites := by
  unfold Obligations.StepChangesOnlyWhatItWrites
  intro s t i a hh hi hstep hw hp hd
  obtain ⟨u, hu, hread⟩ := exec_frame i (advance s (BitVec.ofNat 8 i.length))
    (fun hmem => hw (write_mem_stepAccesses hh hi hmem)) hp hd
  rw [step_of_nextInstr hh hi, hu, onNext_next] at hstep
  obtain rfl : finishStep u = t := Host.Outcome.next.inj hstep
  calc memRead (finishStep u) a
      _ = memRead u a := memRead_finishStep u a
      _ = memRead (advance s (BitVec.ofNat 8 i.length)) a := hread
      _ = memRead s a := memRead_advance_of_regAt_ne_p hp _

/-! ### OCA, OCB and OCX -/

/-- Each of OCA, OCB and OCX lies at an address, and is neither P nor a register an instruction can name
(10_state.md R21, R30). -/
theorem carryCell_address {q : RegName} (hq : q ∈ [.oca, .ocb, .ocx]) :
    (∃ a, regAt a = some q) ∧ q ≠ .p ∧ ∀ r, q ≠ bankReg r := by
  simp only [List.mem_cons, List.not_mem_nil, or_false] at hq
  rcases hq with rfl | rfl | rfl
  · exact ⟨⟨129#8, rfl⟩, by decide, fun r => by cases r <;> decide⟩
  · exact ⟨⟨130#8, rfl⟩, by decide, fun r => by cases r <;> decide⟩
  · exact ⟨⟨131#8, rfl⟩, by decide, fun r => by cases r <;> decide⟩

/-- A halted step changes no register; in a running step the cell's own address has the frame of
`stepChangesOnlyWhatItWrites` unless it is written. Settles O17. -/
theorem carryCellsChangeOnlyByAWriteAtTheirAddress : Obligations.CarryCellsChangeOnlyByAWriteAtTheirAddress := by
  unfold Obligations.CarryCellsChangeOnlyByAWriteAtTheirAddress
  intro s t q hq hstep hchanged
  obtain ⟨⟨a, ha⟩, hqp, hqr⟩ := carryCell_address hq
  rcases step_cases s with ⟨-, hhalted⟩ | ⟨hh, i, hi, -, -⟩
  · obtain rfl : { s with budget := 0 } = t := Host.Outcome.next.inj (hhalted.symm.trans hstep)
    exact absurd (State.get_with_budget s q 0) hchanged
  · refine ⟨a, ha, by_contra fun hw => hchanged ?_⟩
    have hread : memRead t a = memRead s a :=
      stepChangesOnlyWhatItWrites s t i a hh hi hstep hw (by simpa [ha] using hqp) fun r _ => by
        simpa [ha] using hqr r
    rwa [memRead_reg ha, memRead_reg ha] at hread

end Sys2Proof.Machine
end

section
/-! PROOFS. Memory and operands (20_memory.md): the canonical form of RAM along a step, what a step depends on, and the
read and write contracts. -/

namespace Sys2Proof.Machine

/-! ### The invariant of a step -/

/-- An instruction's own effect calls no sink and keeps RAM in canonical form. -/
theorem exec_keeps_trace_and_wf {i : Instr} {s t : State} (h : exec i s = .next t) :
    t.trace = s.trace ∧ (Memory.wf s.ram → Memory.wf t.ram) := by
  rcases exec_cases i s with ⟨-, hexec⟩ | ⟨u, hu, hexec⟩
  · obtain rfl := Host.Outcome.next.inj (hexec.symm.trans h)
    exact ⟨rfl, id⟩
  · have hkeeps : u.trace = s.trace ∧ (Memory.wf s.ram → Memory.wf u.ram) := by
      rcases hu with rfl | ⟨a, v, rfl⟩
      · exact ⟨rfl, id⟩
      · exact ⟨memWrite_trace s a v, fun hs => memWrite_wf hs a v⟩
    rcases hexec with hexec | ⟨q, v, hexec⟩ <;> obtain rfl := Host.Outcome.next.inj (hexec.symm.trans h)
    · exact hkeeps
    · rwa [State.set_trace, State.set_ram]

/-- A halted step touches neither RAM nor the record; an executed one writes memory by its instruction alone and adds
one pair to the record. Settles O11. -/
theorem stepKeepsCanonicalMemoryAndPairedRecord : Obligations.StepKeepsCanonicalMemoryAndPairedRecord := by
  unfold Obligations.StepKeepsCanonicalMemoryAndPairedRecord
  rintro s t ⟨hwf, hpaired⟩ hstep
  rcases step_cases s with ⟨-, hhalted⟩ | ⟨-, i, -, -, hrun⟩
  · obtain rfl := Host.Outcome.next.inj (hhalted.symm.trans hstep)
    exact ⟨hwf, hpaired⟩
  · obtain ⟨u, hexec, rfl⟩ := onNext_eq_next.mp (hrun.symm.trans hstep)
    obtain ⟨htrace, hram⟩ := exec_keeps_trace_and_wf hexec
    refine ⟨hram hwf, ?_⟩
    rw [finishStep_trace, htrace]
    exact hpaired

/-! ### Two states that agree on some cells

A step is run twice, on RAMs that agree on the cells of `C`. While every read lies in `C`, both runs read the same bytes
and so make the same updates, and every update keeps the agreement on `C`. -/

/-- Every read in a list of accesses is of a cell in `C`. -/
def ReadsIn (C : Byte → Prop) (l : List Access) : Prop := ∀ a, Access.read a ∈ l → C a

theorem ReadsIn.mono {C : Byte → Prop} {l l' : List Access} (h : ReadsIn C l) (hl : l' ⊆ l) : ReadsIn C l' :=
  fun a ha => h a (hl ha)

theorem ReadsIn.append_left {C : Byte → Prop} {l l' : List Access} (h : ReadsIn C (l ++ l')) : ReadsIn C l :=
  h.mono (List.subset_append_left l l')

/-- Two states with the same registers and the same engine state, whose memories agree on the cells of `C`. -/
structure AgreeOn (C : Byte → Prop) (s u : State) : Prop where
  get : ∀ q, u.get q = s.get q
  engine : KeepsEngine s u
  mem : ∀ a, C a → memRead u a = memRead s a

theorem agreeOn_with_ram (s : State) (m : Memory) :
    AgreeOn (fun a => memRead { s with ram := m } a = memRead s a) s { s with ram := m } where
  get q := State.get_with_ram s q m
  engine := ⟨rfl, rfl, rfl, rfl⟩
  mem _ ha := ha

section
variable {C : Byte → Prop} {s u : State}

/-! The same update on both sides keeps the agreement. -/

theorem AgreeOn.set (h : AgreeOn C s u) (q : RegName) {v w : Byte} (hv : w = v) :
    AgreeOn C (s.set q v) (u.set q w) where
  get q' := by rw [hv, State.get_set, State.get_set, h.get]
  engine := by simpa [KeepsEngine] using h.engine
  mem a ha := by rw [hv, memRead_set, memRead_set, h.mem a ha]

theorem AgreeOn.setReg (h : AgreeOn C s u) (r : Reg) {v w : Byte} (hv : w = v) :
    AgreeOn C (s.setReg r v) (u.setReg r w) :=
  h.set (bankReg r) hv

theorem AgreeOn.advance (h : AgreeOn C s u) (n : Byte) :
    AgreeOn C (Machine.advance s n) (Machine.advance u n) :=
  h.set .p (by rw [h.get])

theorem AgreeOn.memWrite (h : AgreeOn C s u) {a b v w : Byte} (ha : b = a) (hv : w = v) :
    AgreeOn C (Machine.memWrite s a v) (Machine.memWrite u b w) where
  get q := by rw [ha, hv, memWrite_get, memWrite_get, h.get]
  engine := by simpa [KeepsEngine] using h.engine
  mem c hc := by rw [ha, hv, memRead_memWrite, memRead_memWrite, h.mem c hc]

theorem AgreeOn.setHalt (h : AgreeOn C s u) (b : Bool) :
    AgreeOn C { s with halt := b } { u with halt := b } where
  get q := by rw [State.get_with_halt u q b, State.get_with_halt s q b, h.get]
  engine := ⟨rfl, h.engine.2⟩
  mem a ha := by rw [memRead_with_halt u b, memRead_with_halt s b, h.mem a ha]

theorem AgreeOn.setBudget (h : AgreeOn C s u) (n : Int) :
    AgreeOn C { s with budget := n } { u with budget := n } where
  get q := by rw [State.get_with_budget u q n, State.get_with_budget s q n, h.get]
  engine := by
    obtain ⟨hhalt, hlatch, -, htrace⟩ := h.engine
    exact ⟨hhalt, hlatch, rfl, htrace⟩
  mem a ha := by
    have hread (t : State) : memRead { t with budget := n } a = memRead t a := memRead_congr (by simp) rfl a
    rw [hread, hread, h.mem a ha]

theorem AgreeOn.finishStep (h : AgreeOn C s u) : AgreeOn C (Machine.finishStep s) (Machine.finishStep u) where
  get q := by rw [finishStep_get, finishStep_get, h.get]
  engine := by
    obtain ⟨hhalt, hlatch, hbudget, htrace⟩ := h.engine
    simp [KeepsEngine, hhalt, hlatch, hbudget, htrace, h.get]
  mem a ha := by rw [memRead_finishStep, memRead_finishStep, h.mem a ha]

/-! What is computed from cells of `C` is the same on both sides. -/

theorem AgreeOn.reg (h : AgreeOn C s u) (r : Reg) : u.reg r = s.reg r := h.get (bankReg r)

theorem AgreeOn.effAddr (h : AgreeOn C s u) {m : Mode} {k : Byte} (hr : ReadsIn C (pointerAccesses m k)) :
    Machine.effAddr u m k = Machine.effAddr s m k := by
  cases m with
  | constant | memory => rfl
  | indexed => simp only [Machine.effAddr, h.get]
  | indirect | indirectIndexed => simp only [Machine.effAddr, h.get, h.mem k (hr k (by simp [pointerAccesses]))]

theorem AgreeOn.resolveReadAccesses (h : AgreeOn C s u) {m : Mode} {k : Byte}
    (hr : ReadsIn C (Machine.resolveReadAccesses s m k)) :
    Machine.resolveReadAccesses u m k = Machine.resolveReadAccesses s m k := by
  simp only [Machine.resolveReadAccesses, h.effAddr hr.append_left]

theorem AgreeOn.resolveRead (h : AgreeOn C s u) {m : Mode} {k : Byte}
    (hr : ReadsIn C (Machine.resolveReadAccesses s m k)) :
    Machine.resolveRead u m k = Machine.resolveRead s m k := by
  rw [resolveRead_eq, resolveRead_eq, h.effAddr hr.append_left]
  rcases ha : Machine.effAddr s m k with _ | a
  · rfl
  · exact h.mem a (hr a (by simp [Machine.resolveReadAccesses, ha]))

theorem AgreeOn.resolveWriteAccesses (h : AgreeOn C s u) {m : Mode} {k : Byte}
    (hr : ReadsIn C (Machine.resolveWriteAccesses s m k)) :
    Machine.resolveWriteAccesses u m k = Machine.resolveWriteAccesses s m k := by
  simp only [Machine.resolveWriteAccesses, h.effAddr hr.append_left]

theorem AgreeOn.resolveWrite (h : AgreeOn C s u) {m : Mode} {k v w : Byte}
    (hr : ReadsIn C (Machine.resolveWriteAccesses s m k)) (hv : w = v) :
    AgreeOn C (Machine.resolveWrite s m k v) (Machine.resolveWrite u m k w) := by
  unfold Machine.resolveWrite
  rw [h.effAddr hr.append_left]
  cases Machine.effAddr s m k with
  | none => exact h
  | some a => exact h.memWrite rfl hv

theorem AgreeOn.jumpTaken (h : AgreeOn C s u) (t : JumpTest) : Machine.jumpTaken u t = Machine.jumpTaken s t := by
  cases t with
  | unconditional => rfl
  | ifReg r c => simp only [Machine.jumpTaken, h.reg]

/-- A jump's target is the same on both sides when the jump is taken: only then is the pointer read
(43_jumps.md R170). -/
theorem AgreeOn.jumpTarget (h : AgreeOn C s u) {t : JumpTest} {m : JumpMode} {mark : Bool} {k : Byte}
    (hr : ReadsIn C (Machine.jumpAccesses s t m mark k)) (ht : Machine.jumpTaken s t = true) :
    Machine.jumpTarget u m k = Machine.jumpTarget s m k := by
  cases m with
  | memory => rfl
  | indirect => exact h.mem k (hr k (by simp [Machine.jumpAccesses, ht]))

theorem AgreeOn.jumpAccesses (h : AgreeOn C s u) {t : JumpTest} {m : JumpMode} {mark : Bool} {k : Byte}
    (hr : ReadsIn C (Machine.jumpAccesses s t m mark k)) :
    Machine.jumpAccesses u t m mark k = Machine.jumpAccesses s t m mark k := by
  cases ht : Machine.jumpTaken s t with
  | false => simp [Machine.jumpAccesses, h.jumpTaken, ht]
  | true => simp only [Machine.jumpAccesses, h.jumpTaken, h.jumpTarget hr ht]

theorem AgreeOn.jump (h : AgreeOn C s u) {t : JumpTest} {m : JumpMode} {mark : Bool} {k : Byte}
    (hr : ReadsIn C (Machine.jumpAccesses s t m mark k)) :
    AgreeOn C (Machine.jump s t m mark k) (Machine.jump u t m mark k) := by
  unfold Machine.jump
  rw [h.jumpTaken]
  split
  next ht =>
    have htarget := h.jumpTarget hr ht
    split
    · exact (h.memWrite htarget (h.get .p)).set .p (by rw [htarget])
    · exact h.set .p htarget
  next => exact h

theorem AgreeOn.skipIf (h : AgreeOn C s u) {k : Byte} (hk : C k) (wanted : Bool) (n : Fin 8) :
    AgreeOn C (Machine.skipIf s wanted n k) (Machine.skipIf u wanted n k) := by
  unfold Machine.skipIf
  rw [h.mem k hk]
  split
  · exact h.advance 2#8
  · exact h

/-! ### What an instruction, the fetch and a step depend on -/

/-- An instruction whose reads lie in `C` makes the same accesses on both sides and keeps the agreement. -/
theorem AgreeOn.exec (h : AgreeOn C s u) (i : Instr) (hr : ReadsIn C (execAccesses i s)) :
    execAccesses i u = execAccesses i s ∧
      ∃ t t', Machine.exec i s = .next t ∧ Machine.exec i u = .next t' ∧ AgreeOn C t t' := by
  cases i with
  | add r m k | sub r m k =>
    exact ⟨h.resolveReadAccesses hr, _, _, rfl, rfl, h.setReg r (by rw [h.reg, h.resolveRead hr])⟩
  | load r m k => exact ⟨h.resolveReadAccesses hr, _, _, rfl, rfl, h.setReg r (h.resolveRead hr)⟩
  | or m k | and m k =>
    exact ⟨h.resolveReadAccesses hr, _, _, rfl, rfl, h.setReg .a (by rw [h.reg, h.resolveRead hr])⟩
  | lneg m k => exact ⟨h.resolveReadAccesses hr, _, _, rfl, rfl, h.setReg .a (by rw [h.resolveRead hr])⟩
  | store r m k => exact ⟨h.resolveWriteAccesses hr, _, _, rfl, rfl, h.resolveWrite hr (h.reg r)⟩
  | jpd t k | jpi t k | jmd t k | jmi t k =>
    simp only [execAccesses] at hr ⊢
    exact ⟨h.jumpAccesses hr, _, _, rfl, rfl, h.jump hr⟩
  | skp0 n k | skp1 n k => exact ⟨rfl, _, _, rfl, rfl, h.skipIf (hr k List.mem_cons_self) _ n⟩
  | set0 n k | set1 n k =>
    exact ⟨rfl, _, _, rfl, rfl, h.memWrite rfl (by rw [h.mem k (hr k List.mem_cons_self)])⟩
  | sftl r n | sftr r n | rotr r n => exact ⟨rfl, _, _, rfl, rfl, h.setReg r (by rw [h.reg])⟩
  | noop => exact ⟨rfl, _, _, rfl, rfl, h⟩
  | halt => exact ⟨rfl, _, _, rfl, rfl, h.setHalt true⟩

/-- The descriptor of the fetch is that of the byte at P (40_engine_step.md R132). -/
theorem fetch_descriptor (s : State) : (fetch s).1 = decode (memRead s (s.get .p)) := by
  obtain ⟨-, -, -, hd, -⟩ := fetch_spec s
  exact hd

/-- The operand byte of the fetch: the byte after the opcode, read with P advanced, when there is a mode
(40_engine_step.md R134). -/
theorem fetch_operand (s : State) :
    (fetch s).2.1 = (fetch s).1.addressingMode.map fun _ => memRead (advance s 1#8) (s.get .p + 1#8) := by
  rw [fetch_descriptor]
  unfold fetch fetchOperand
  cases (decode (memRead s (s.get .p))).addressingMode <;> simp

/-- Two states that agree on the bytes of the next instruction have the same next instruction. -/
theorem AgreeOn.nextInstr (h : AgreeOn C s u) {i : Instr} (hi : Machine.nextInstr s = some i) (hopcode : C (s.get .p))
    (hoperand : i.operandByte.isSome → C (s.get .p + 1#8)) : Machine.nextInstr u = some i := by
  obtain ⟨i', hi', -, -, hinstr, hbyte, -⟩ := fetch_spec s
  obtain rfl : i = i' := Option.some.inj (hi.symm.trans hi')
  obtain ⟨j, hj, -, -, hinstr', -, -⟩ := fetch_spec u
  have hdesc : (fetch u).1 = (fetch s).1 := by
    rw [fetch_descriptor, fetch_descriptor, h.get, h.mem _ hopcode]
  have hbyte' : (fetch u).2.1 = (fetch s).2.1 := by
    rw [fetch_operand, fetch_operand, hdesc]
    rcases hm : (fetch s).1.addressingMode with _ | m
    · rfl
    · have htwo : i.operandByte.isSome := by rw [← hbyte, fetch_operand, hm]; rfl
      simp only [Option.map_some, h.get, (h.advance 1#8).mem _ (hoperand htwo)]
  rw [hdesc, hbyte', hinstr] at hinstr'
  rw [hj, hinstr']

/-- A step whose reads lie in `C` makes the same accesses on both sides and keeps the agreement. -/
theorem AgreeOn.step (h : AgreeOn C s u) (hr : ReadsIn C (Machine.stepAccesses s)) :
    Machine.stepAccesses u = Machine.stepAccesses s ∧
      ∃ t t', Machine.step s = .next t ∧ Machine.step u = .next t' ∧ AgreeOn C t t' := by
  obtain ⟨hhalt, -, -, -⟩ := h.engine
  rcases step_cases s with ⟨hs, hstep⟩ | ⟨hs, i, hi, -, -⟩
  · have hu : u.halt = true := hhalt.trans hs
    refine ⟨by simp [Machine.stepAccesses, hs, hu], _, _, hstep, ?_, h.setBudget 0⟩
    simp [Machine.step, engineStep, haltedStep, hu]
  · have hu : u.halt = false := hhalt.trans hs
    have hacc := stepAccesses_eq hs hi
    rw [hacc] at hr
    have hi' : Machine.nextInstr u = some i :=
      h.nextInstr hi (hr _ List.mem_cons_self) fun htwo => hr _ (by simp [htwo])
    obtain ⟨hsame, t, t', ht, ht', hagree⟩ := (h.advance (BitVec.ofNat 8 i.length)).exec i fun a ha =>
      hr a (List.mem_cons_of_mem _ (List.mem_append_right _ ha))
    refine ⟨by rw [hacc, stepAccesses_eq hu hi', hsame, h.get], _, _, ?_, ?_, hagree.finishStep⟩
    · rw [step_of_nextInstr hs hi, ht, onNext_next]
    · rw [step_of_nextInstr hu hi', ht', onNext_next]

end

/-- `AgreeOn.step` for the set of all cells that read alike under both RAMs. Settles O19. -/
theorem stepDependsOnlyOnTheCellsItReads : Obligations.StepDependsOnlyOnTheCellsItReads := by
  unfold Obligations.StepDependsOnlyOnTheCellsItReads
  intro s m hreads
  obtain ⟨hacc, t, u, ht, hu, hagree⟩ := (agreeOn_with_ram s m).step hreads
  exact ⟨hacc, t, u, ht, hu, hagree.get, hagree.engine, hagree.mem⟩

/-! ### Memory as storage -/

theorem memWrites_append_singleton (s : State) (ws : List (Byte × Byte)) (w : Byte × Byte) :
    memWrites s (ws ++ [w]) = memWrite (memWrites s ws) w.1 w.2 := by
  simp [memWrites]

theorem lastWrite_append_singleton (ws : List (Byte × Byte)) (w : Byte × Byte) (a : Byte) :
    lastWrite (ws ++ [w]) a = if a = w.1 then some w.2 else lastWrite ws a := by
  by_cases h : a = w.1
  · simp [lastWrite, h]
  · simp [lastWrite, h, Ne.symm h]

theorem memRead_memWrites (s : State) (ws : List (Byte × Byte)) (a : Byte) :
    memRead (memWrites s ws) a = (lastWrite ws a).getD (memRead s a) := by
  induction ws using List.reverseRecOn with
  | nil => rfl
  | append_singleton ws w ih =>
    rw [memWrites_append_singleton, lastWrite_append_singleton, memRead_memWrite, ih]
    split <;> rfl

/-- A RAM cell after reset: nothing is listed, so it reads as its power-on content (20_memory.md R56). -/
theorem memRead_reset_of_ram {a : Byte} (ha : regAt a = none) : memRead State.reset a = Config.ram0 a := by
  rw [memRead_ram ha]
  rfl

/-- By induction over the list of writes from its end, with the read after one write at each place. Settles O22. -/
theorem memoryReadsTheLastByteWritten : Obligations.MemoryReadsTheLastByteWritten := by
  unfold Obligations.MemoryReadsTheLastByteWritten
  exact ⟨memRead_memWrites, fun _ ha => memRead_reset_of_ram ha⟩

/-! ### A write and a read in one mode -/

theorem resolveRead_of_effAddr {s : State} {m : Mode} {k a : Byte} (ha : effAddr s m k = some a) :
    resolveRead s m k = memRead s a := by
  rw [resolveRead_eq, ha]
  rfl

theorem resolveWrite_of_effAddr {s : State} {m : Mode} {k a : Byte} (ha : effAddr s m k = some a) (v : Byte) :
    resolveWrite s m k v = memWrite s a v := by
  simp only [resolveWrite, ha]

/-- The round trip under its general side condition: the write leaves the effective address as it was. -/
theorem resolveRead_resolveWrite {s : State} {m : Mode} {k v : Byte} (hm : m ≠ .constant)
    (hkeep : effAddr (resolveWrite s m k v) m k = effAddr s m k) : resolveRead (resolveWrite s m k v) m k = v := by
  obtain ⟨a, ha⟩ := Option.ne_none_iff_exists'.mp (mt effAddr_eq_none.mp hm)
  rw [resolveRead_of_effAddr (hkeep.trans ha), resolveWrite_of_effAddr ha, memRead_memWrite_self]

/-- An INDEXED write leaves its address unless it overwrites X with another value (90_conflicts.md C4). -/
theorem effAddr_resolveWrite_indexed {s : State} {k v : Byte} (h : k + s.get .x = 2#8 → v = s.get .x) :
    effAddr (resolveWrite s .indexed k v) .indexed k = effAddr s .indexed k := by
  have hx : (memWrite s (k + s.get .x) v).get .x = s.get .x := by
    rw [memWrite_get]
    split
    next hreg => exact h (regAt_injective hreg rfl)
    next => rfl
  rw [resolveWrite_of_effAddr rfl]
  simp only [effAddr, hx]

/-- An INDIRECT write leaves its address unless the pointer points at itself and gets another value
(90_conflicts.md C4). -/
theorem effAddr_resolveWrite_indirect {s : State} {k v : Byte} (h : memRead s k = k → v = k) :
    effAddr (resolveWrite s .indirect k v) .indirect k = effAddr s .indirect k := by
  have hpointer : memRead (memWrite s (memRead s k) v) k = memRead s k := by
    by_cases hself : memRead s k = k
    · rw [hself, memRead_memWrite_self, h hself]
    · exact memRead_memWrite_ne (Ne.symm hself) v
  rw [resolveWrite_of_effAddr rfl]
  simp only [effAddr, hpointer]

/-- The general law, and in each named mode what keeps the effective address. The exceptions start from reset: an
INDEXED write of 1 at `2 + X` makes X 1, so the read is of P; an INDIRECT write of 1 through A, which points at itself,
makes A point at B. Settles O24. -/
theorem resolverRoundTripWithItsSideCondition : Obligations.ResolverRoundTripWithItsSideCondition := by
  unfold Obligations.ResolverRoundTripWithItsSideCondition
  refine ⟨fun s m k v hm hkeep => resolveRead_resolveWrite hm hkeep,
    fun s k v => resolveRead_resolveWrite (by decide) rfl,
    fun s k v h => resolveRead_resolveWrite (by decide) (effAddr_resolveWrite_indexed h),
    fun s k v h => resolveRead_resolveWrite (by decide) (effAddr_resolveWrite_indirect h),
    ⟨State.reset, 2#8, 1#8, ?_⟩, ⟨State.reset, 0#8, 1#8, ?_⟩⟩
  · decide
  · decide

/-! ### A store into the next opcode byte -/

/-- A register operand is not P, so the advance of P leaves it. -/
theorem reg_advance (s : State) (n : Byte) (r : Reg) : (advance s n).reg r = s.reg r :=
  advance_get_ne s (bankReg r) n (bankReg_ne_p r)

/-- The step of a STORE with an effective address is the write there, then the charge and the notifications. -/
theorem step_store {s : State} {r : Reg} {m : Mode} {k a : Byte} (hh : s.halt = false)
    (hi : nextInstr s = some (.store r m k)) (ha : effAddr (advance s 2#8) m k = some a) :
    step s = .next (finishStep (memWrite (advance s 2#8) a (s.reg r))) := by
  have hexec : exec (.store r m k) (advance s 2#8) = .next (memWrite (advance s 2#8) a (s.reg r)) := by
    rw [← reg_advance s 2#8 r, ← resolveWrite_of_effAddr ha]
    rfl
  rw [step_of_nextInstr hh hi]
  exact congrArg (onNext · finishStep) hexec

/-- The next fetch reads the cell at P, which is the one just written. Settles O30. -/
theorem storeIntoTheNextOpcodeIsFetched : Obligations.StoreIntoTheNextOpcodeIsFetched := by
  unfold Obligations.StoreIntoTheNextOpcodeIsFetched
  intro s t r m k hh hi hstep ha
  have ht : finishStep (memWrite (advance s 2#8) (t.get .p) (s.reg r)) = t :=
    Host.Outcome.next.inj ((step_store hh hi ha).symm.trans hstep)
  have hread : memRead t (t.get .p) = s.reg r := by
    calc memRead t (t.get .p)
        _ = memRead (finishStep (memWrite (advance s 2#8) (t.get .p) (s.reg r))) (t.get .p) := by rw [ht]
        _ = memRead (memWrite (advance s 2#8) (t.get .p) (s.reg r)) (t.get .p) := memRead_finishStep _ _
        _ = s.reg r := memRead_memWrite_self _ _ _
  rw [fetch_descriptor, hread]

/-! ### The overlay and the operand forms -/

/-- No address but the nine has a register (20_memory.md R52). -/
theorem regAt_eq_none {a : Byte} (ha : a ∉ [0#8, 1#8, 2#8, 3#8, 128#8, 129#8, 130#8, 131#8, 255#8]) :
    regAt a = none := by
  revert a; decide

/-- Settles O20: the nine rows by evaluation, the complement by `regAt_eq_none`. -/
theorem regAtIsTheTableOfNineAddresses : Obligations.RegAtIsTheTableOfNineAddresses := by
  unfold Obligations.RegAtIsTheTableOfNineAddresses
  exact ⟨rfl, rfl, rfl, rfl, rfl, rfl, rfl, rfl, rfl, fun _ ha => regAt_eq_none ha⟩

/-- Settles O21: at a register's address the overlay decode answers before RAM is reached. -/
theorem registerAddressesNeverReachRam : Obligations.RegisterAddressesNeverReachRam := by
  unfold Obligations.RegisterAddressesNeverReachRam
  intro s a v m q ha
  refine ⟨?_, ?_, ?_, ?_⟩
  · rw [memRead_reg ha, State.get_with_ram]
  · rw [memWrite_reg ha, State.set_ram]
  · rw [memWrite_reg ha, State.get_set_self]
  · simp [portCalls, Access.address, ha]

/-- The sum of an index is the sum modulo 256 (20_memory.md R68). -/
theorem add_eq_ofNat_mod (a b : Byte) : a + b = BitVec.ofNat 8 ((a.toNat + b.toNat) % 256) := by
  apply BitVec.eq_of_toNat_eq
  simp

/-- Settles O23: each mode's effective address, with the sums written modulo 256. -/
theorem operandFormsPerMode : Obligations.OperandFormsPerMode := by
  unfold Obligations.OperandFormsPerMode
  intro s k v
  simp only [← add_eq_ofNat_mod]
  exact ⟨⟨rfl, rfl, rfl, rfl, rfl⟩, ⟨rfl, rfl, rfl, rfl, rfl⟩, ⟨rfl, rfl⟩, rfl, rfl⟩

end Sys2Proof.Machine
end

section
/-! PROOFS. Decoding and encoding (30_encoding.md): the fields of an opcode byte, the decision tree over them, the
descriptor of an instruction, and the dispatch over descriptors. -/

namespace Sys2Proof

/-! ### The fields of an opcode byte (R90) -/

section Fields
variable (b : Byte)

theorem lowField_eq : lowField b = b.toNat % 8 := by
  simp [lowField]

theorem midField_eq : midField b = b.toNat / 8 % 8 := by
  simp [midField, Nat.shiftRight_eq_div_pow]

theorem hiField_eq : hiField b = b.toNat / 64 := by
  have := b.isLt
  simp only [hiField, BitVec.extractLsb'_toNat, Nat.shiftRight_eq_div_pow]
  omega

theorem lowField_lt : lowField b < 8 := (b.extractLsb' 0 3).isLt

theorem midField_lt : midField b < 8 := (b.extractLsb' 3 3).isLt

theorem hiField_lt : hiField b < 4 := (b.extractLsb' 6 2).isLt

theorem countField_eq : countField b = midField b % 4 := by
  rw [midField_eq]
  simp only [countField, BitVec.extractLsb'_toNat, Nat.shiftRight_eq_div_pow]
  omega

/-- Opcode bit 5 is the upper bit of `mid`. -/
theorem getLsbD_five : b.getLsbD 5 = decide (4 ≤ midField b) := by
  rw [midField_eq, Bool.eq_iff_iff, decide_eq_true_iff, BitVec.getLsbD, Nat.testBit_eq_decide_div_mod_eq,
    decide_eq_true_iff]
  omega

/-- Opcode bit 7 is the upper bit of `hi`. -/
theorem getLsbD_seven : b.getLsbD 7 = decide (2 ≤ hiField b) := by
  have := b.isLt
  rw [hiField_eq, Bool.eq_iff_iff, decide_eq_true_iff, BitVec.getLsbD, Nat.testBit_eq_decide_div_mod_eq,
    decide_eq_true_iff]
  omega

end Fields

/-- A byte is its three fields. -/
theorem eq_of_fields {b c : Byte} (hhi : hiField b = hiField c) (hmid : midField b = midField c)
    (hlow : lowField b = lowField c) : b = c := by
  rw [hiField_eq, hiField_eq] at hhi
  rw [midField_eq, midField_eq] at hmid
  rw [lowField_eq, lowField_eq] at hlow
  exact BitVec.eq_of_toNat_eq (by omega)

/-- The fields of an opcode byte made from its fields. -/
theorem fields_opcodeByte {hi mid low : Nat} (hhi : hi < 4) (hmid : mid < 8) (hlow : low < 8) :
    hiField (opcodeByte hi mid low) = hi ∧ midField (opcodeByte hi mid low) = mid ∧
      lowField (opcodeByte hi mid low) = low := by
  rw [hiField_eq, midField_eq, lowField_eq, opcodeByte, BitVec.toNat_ofNat]
  omega

/-! ### The decision tree over the fields (R94 to R99) -/

/-- The function `hi` names in the shift family (R95). -/
def shiftFunction : Nat → FunctionId
  | 0 => .sftr
  | 1 => .rotr
  | 2 => .sftl
  | _ => .sftr

/-- The function `hi` names in the bit family (R96). -/
def bitFunction : Nat → FunctionId
  | 0 => .set0
  | 1 => .set1
  | 2 => .skp0
  | _ => .skp1

/-- The function bits 4:3 name in the jump family (R97). -/
def jumpFunction : Nat → FunctionId
  | 0 => .jpd
  | 1 => .jpi
  | 2 => .jmd
  | _ => .jmi

/-- The function `mid` names in the bitwise family, where it is not 1 (R98). -/
def bitwiseFunction : Nat → FunctionId
  | 0 => .or
  | 2 => .and
  | _ => .lneg

/-- The function `mid` names in the ALU family (R99). -/
def aluFunction : Nat → FunctionId
  | 0 => .add
  | 1 => .sub
  | 2 => .load
  | _ => .store

/-- The place count that bits 4:3 name, 0 remapped to 4 (R95). -/
def placesOf (count : Nat) : Fin 8 := if count = 0 then 4 else Fin.ofNat 8 count

section DecisionTree
variable {b : Byte}

theorem decode_zeroOperand (hlow : lowField b = 0) :
    decode b = ⟨if 2 ≤ hiField b then .noop else .halt, none, none, none, none, false⟩ := by
  simp only [decode, hlow, decodeZeroOperand, getLsbD_seven, decide_eq_true_eq]
  rfl

theorem decode_shift (hlow : lowField b = 1) :
    decode b = ⟨shiftFunction (hiField b), none, some (if 4 ≤ midField b then .b else .a),
      some (placesOf (midField b % 4)), none, false⟩ := by
  simp only [decode, hlow, decodeShift, getLsbD_five, decide_eq_true_eq, placeCount, countField_eq]
  rfl

theorem decode_bitOp (hlow : lowField b = 2) :
    decode b = ⟨bitFunction (hiField b), some .memory, none, some (Fin.ofNat 8 (midField b)), none, false⟩ := by
  simp only [decode, hlow, decodeBitOp]
  rfl

theorem decode_jump (hlow : 3 ≤ lowField b) (hmid : 4 ≤ midField b) :
    decode b = ⟨jumpFunction (midField b % 4), some (if midField b % 4 % 2 = 0 then .memory else .indirect),
      regOfHi (hiField b), none, if (regOfHi (hiField b)).isSome then condOfLow (lowField b) else none,
      decide (2 ≤ midField b % 4)⟩ := by
  unfold decode
  rw [if_neg (by omega), if_neg (by omega), if_neg (by omega), if_pos hmid, decodeJump, countField_eq]
  rfl

theorem decode_high (hlow : 3 ≤ lowField b) (hmid : midField b < 4) :
    decode b = if hiField b = 3 then decodeBitwise b else decodeAlu b := by
  unfold decode
  rw [if_neg (by omega), if_neg (by omega), if_neg (by omega), if_neg (by omega)]

theorem decode_bitwiseNoop (hlow : 3 ≤ lowField b) (hmid : midField b = 1) (hhi : hiField b = 3) :
    decode b = ⟨.noop, none, none, none, none, false⟩ := by
  rw [decode_high hlow (by omega), if_pos hhi, decodeBitwise, hmid]
  rfl

theorem decode_bitwise (hlow : 3 ≤ lowField b) (hmid : midField b < 4) (hne : midField b ≠ 1) (hhi : hiField b = 3) :
    decode b = ⟨bitwiseFunction (midField b), modeOfLow (lowField b), some .a, none, none, false⟩ := by
  rw [decode_high hlow hmid, if_pos hhi, decodeBitwise]
  split
  next h => exact absurd h hne
  next => rfl

theorem decode_alu (hlow : 3 ≤ lowField b) (hmid : midField b < 4) (hhi : hiField b ≠ 3) :
    decode b = ⟨aluFunction (midField b), modeOfLow (lowField b), regOfHi (hiField b), none, none, false⟩ := by
  rw [decode_high hlow hmid, if_neg hhi, decodeAlu]
  rfl

end DecisionTree

/-! ### Every instruction's descriptor -/

/-- The condition a jump tests. -/
def JumpTest.cond : JumpTest → Option Cond
  | .unconditional => none
  | .ifReg _ c => some c

/-- The register a jump tests. -/
def JumpTest.reg : JumpTest → Option Reg
  | .unconditional => none
  | .ifReg r _ => some r

/-- The descriptor of an instruction: the table of R101, row by row. -/
def Instr.descriptor : Instr → Descriptor
  | .add r m _ => ⟨.add, some m, some r, none, none, false⟩
  | .sub r m _ => ⟨.sub, some m, some r, none, none, false⟩
  | .load r m _ => ⟨.load, some m, some r, none, none, false⟩
  | .store r m _ => ⟨.store, some m, some r, none, none, false⟩
  | .or m _ => ⟨.or, some m, some .a, none, none, false⟩
  | .and m _ => ⟨.and, some m, some .a, none, none, false⟩
  | .lneg m _ => ⟨.lneg, some m, some .a, none, none, false⟩
  | .jpd t _ => ⟨.jpd, some .memory, t.reg, none, t.cond, false⟩
  | .jpi t _ => ⟨.jpi, some .indirect, t.reg, none, t.cond, false⟩
  | .jmd t _ => ⟨.jmd, some .memory, t.reg, none, t.cond, true⟩
  | .jmi t _ => ⟨.jmi, some .indirect, t.reg, none, t.cond, true⟩
  | .skp0 n _ => ⟨.skp0, some .memory, none, some n, none, false⟩
  | .skp1 n _ => ⟨.skp1, some .memory, none, some n, none, false⟩
  | .set0 n _ => ⟨.set0, some .memory, none, some n, none, false⟩
  | .set1 n _ => ⟨.set1, some .memory, none, some n, none, false⟩
  | .sftl r n => ⟨.sftl, none, some r, some n, none, false⟩
  | .sftr r n => ⟨.sftr, none, some r, some n, none, false⟩
  | .rotr r n => ⟨.rotr, none, some r, some n, none, false⟩
  | .noop => ⟨.noop, none, none, none, none, false⟩
  | .halt => ⟨.halt, none, none, none, none, false⟩

/-- A jump test whose condition and register are present together is those two fields (R97). -/
theorem fields_of_jumpTest {d : Descriptor} {t : JumpTest} (h : d.jumpTest = some t)
    (hpresent : d.jumpCondition.isSome = d.registerOperand.isSome) :
    d.registerOperand = t.reg ∧ d.jumpCondition = t.cond := by
  unfold Descriptor.jumpTest at h
  split at h
  next hc =>
    obtain rfl := Option.some.inj h
    exact ⟨by simpa [hc, JumpTest.reg] using hpresent.symm, hc⟩
  next hc hr =>
    obtain rfl := Option.some.inj h
    exact ⟨hr, hc⟩
  next => cases h

/-- An instruction's descriptor and operand byte give the instruction back. -/
theorem toInstr_descriptor (i : Instr) : i.descriptor.toInstr i.operandByte = some i := by
  cases i with
  | jpd t | jpi t | jmd t | jmi t => cases t <;> rfl
  | _ => rfl

/-- An instruction has an operand byte exactly when its descriptor has a mode (R91). -/
theorem isSome_mode_descriptor (i : Instr) : i.descriptor.addressingMode.isSome = i.operandByte.isSome := by
  cases i <;> rfl

/-- A descriptor of a shape of R101 that gives an instruction is that instruction's descriptor: the fields that
`toInstr` reads are the instruction's operands, and the shape fixes the others. -/
theorem eq_descriptor_of_toInstr {d : Descriptor} {k : Option Byte} {i : Instr} (hd : d.consistent = true)
    (hi : d.toInstr k = some i) : d = i.descriptor := by
  rcases d with ⟨f, m, r, n, c, mark⟩
  cases f with
  | add | sub | load | store =>
    simp only [Descriptor.toInstr, Option.pure_def, Option.bind_eq_bind, Option.bind_eq_some_iff,
      Option.some.injEq] at hi
    obtain ⟨r, rfl, m, rfl, k, rfl, rfl⟩ := hi
    simpa [Descriptor.consistent, Instr.descriptor, and_assoc] using hd
  | or | and | lneg =>
    simp only [Descriptor.toInstr, Option.pure_def, Option.bind_eq_bind, Option.ite_none_right_eq_some,
      Option.bind_eq_some_iff, Option.some.injEq] at hi
    obtain ⟨rfl, m, rfl, k, rfl, rfl⟩ := hi
    simpa [Descriptor.consistent, Instr.descriptor, and_assoc] using hd
  | jpd | jpi | jmd | jmi =>
    simp only [Descriptor.toInstr, Option.pure_def, Option.bind_eq_bind, Option.ite_none_right_eq_some,
      Option.bind_eq_some_iff, Option.some.injEq] at hi
    obtain ⟨-, t, ht, k, rfl, rfl⟩ := hi
    simp only [Descriptor.consistent, Bool.and_eq_true, beq_iff_eq, Option.isNone_iff_eq_none] at hd
    obtain ⟨⟨⟨rfl, rfl⟩, hpresent⟩, hmark⟩ := hd
    obtain ⟨rfl, rfl⟩ : r = t.reg ∧ c = t.cond := fields_of_jumpTest ht hpresent
    simpa [Instr.descriptor] using hmark
  | skp0 | skp1 | set0 | set1 =>
    simp only [Descriptor.toInstr, Option.pure_def, Option.bind_eq_bind, Option.ite_none_right_eq_some,
      Option.bind_eq_some_iff, Option.some.injEq] at hi
    obtain ⟨-, n, rfl, k, rfl, rfl⟩ := hi
    simpa [Descriptor.consistent, Instr.descriptor, and_assoc] using hd
  | sftl | sftr | rotr =>
    simp only [Descriptor.toInstr, Option.pure_def, Option.bind_eq_bind, Option.bind_eq_some_iff,
      Option.some.injEq] at hi
    obtain ⟨r, rfl, n, rfl, rfl⟩ := hi
    simp only [Descriptor.consistent, Bool.and_eq_true, Option.isNone_iff_eq_none, Bool.not_eq_true'] at hd
    obtain ⟨⟨⟨⟨rfl, -⟩, -⟩, rfl⟩, rfl⟩ := hd
    rfl
  | rotl => cases hi
  | noop | halt =>
    obtain rfl := Option.some.inj hi
    simpa [Descriptor.consistent, Instr.descriptor, and_assoc] using hd

/-! ### The opcode of an instruction -/

theorem Reg.hi_lt (r : Reg) : r.hi < 3 := by cases r <;> decide
theorem Mode.low_bounds (m : Mode) : 3 ≤ m.low ∧ m.low < 8 := by cases m <;> decide
theorem Cond.low_bounds (c : Cond) : 3 ≤ c.low ∧ c.low < 8 := by cases c <;> decide

@[simp] theorem regOfHi_hi (r : Reg) : regOfHi r.hi = some r := by cases r <;> rfl
@[simp] theorem modeOfLow_low (m : Mode) : modeOfLow m.low = some m := by cases m <;> rfl
@[simp] theorem condOfLow_low (c : Cond) : condOfLow c.low = some c := by cases c <;> rfl

theorem decode_aluOpcode (r : Reg) (m : Mode) {o : Nat} (ho : o < 4) :
    decode (opcodeByte r.hi o m.low) = ⟨aluFunction o, some m, some r, none, none, false⟩ := by
  have hr := r.hi_lt
  obtain ⟨hm3, hm8⟩ := m.low_bounds
  obtain ⟨hhi, hmid, hlow⟩ := fields_opcodeByte (hr.trans (by decide)) (ho.trans (by decide)) hm8
  rw [decode_alu (by omega) (by omega) (by omega), hhi, hmid, hlow, modeOfLow_low, regOfHi_hi]

theorem decode_bitwiseOpcode (m : Mode) {o : Nat} (ho : o < 4) (hne : o ≠ 1) :
    decode (opcodeByte 3 o m.low) = ⟨bitwiseFunction o, some m, some .a, none, none, false⟩ := by
  obtain ⟨hm3, hm8⟩ := m.low_bounds
  obtain ⟨hhi, hmid, hlow⟩ := fields_opcodeByte (by decide : 3 < 4) (ho.trans (by decide)) hm8
  rw [decode_bitwise (by omega) (by omega) (by omega) hhi, hmid, hlow, modeOfLow_low]

theorem decode_jumpOpcode (t : JumpTest) {j : Nat} (hj : j < 4) :
    decode (jumpOpcode j t) = ⟨jumpFunction j, some (if j % 2 = 0 then .memory else .indirect), t.reg, none, t.cond,
      decide (2 ≤ j)⟩ := by
  have hkind : (4 + j) % 4 = j := by omega
  cases t with
  | unconditional =>
    obtain ⟨hhi, hmid, hlow⟩ := fields_opcodeByte (by decide : 3 < 4) (by omega : 4 + j < 8) (by decide : 3 < 8)
    rw [jumpOpcode, decode_jump (by omega) (by omega), hhi, hmid, hkind]
    rfl
  | ifReg r c =>
    obtain ⟨hc3, hc8⟩ := c.low_bounds
    obtain ⟨hhi, hmid, hlow⟩ := fields_opcodeByte (r.hi_lt.trans (by decide)) (by omega : 4 + j < 8) hc8
    rw [jumpOpcode, decode_jump (by omega) (by omega), hhi, hmid, hlow, hkind, regOfHi_hi, condOfLow_low]
    rfl

theorem decode_bitOpcode {hi : Nat} (hhi : hi < 4) (n : Fin 8) :
    decode (opcodeByte hi n.val 2) = ⟨bitFunction hi, some .memory, none, some n, none, false⟩ := by
  obtain ⟨hhi, hmid, hlow⟩ := fields_opcodeByte hhi n.isLt (by decide : 2 < 8)
  rw [decode_bitOp hlow, hhi, hmid, Fin.ofNat_val_eq_self]

/-- The count of a valid place count is written modulo 4 (R95). -/
theorem placesOf_mod {n : Fin 8} (hn : validPlaces n = true) : placesOf (n.val % 4) = n := by
  revert n; decide

theorem decode_shiftOpcode {hi : Nat} (hhi : hi < 4) {r : Reg} {n : Fin 8} (hr : r.shiftable = true)
    (hn : validPlaces n = true) :
    decode (shiftOpcode hi r n) = ⟨shiftFunction hi, none, some r, some n, none, false⟩ := by
  have hmidLt : (if r = .b then 4 else 0) + n.val % 4 < 8 := by split <;> omega
  have hcount : ((if r = .b then 4 else 0) + n.val % 4) % 4 = n.val % 4 := by split <;> omega
  have hreg : (if 4 ≤ (if r = .b then 4 else 0) + n.val % 4 then Reg.b else .a) = r := by
    cases r with
    | a => exact if_neg (by simp; omega)
    | b => exact if_pos (by simp)
    | x => cases hr
  obtain ⟨hhi, hmid, hlow⟩ := fields_opcodeByte hhi hmidLt (by decide : 1 < 8)
  rw [shiftOpcode, decode_shift hlow, hhi, hmid, hcount, hreg, placesOf_mod hn]

/-- The opcode of a well-formed instruction decodes to its descriptor. -/
theorem decode_opcode {i : Instr} (hi : i.wellFormed = true) : decode i.opcode = i.descriptor := by
  cases i with
  | add r m | sub r m | load r m | store r m => exact decode_aluOpcode r m (by decide)
  | or m | and m | lneg m => exact decode_bitwiseOpcode m (by decide) (by decide)
  | jpd t | jpi t | jmd t | jmi t => exact decode_jumpOpcode t (by decide)
  | skp0 n | skp1 n | set0 n | set1 n => exact decode_bitOpcode (by decide) n
  | sftl r n | sftr r n | rotr r n =>
    obtain ⟨hr, hn⟩ := Bool.and_eq_true_iff.mp hi
    exact decode_shiftOpcode (by decide) hr hn
  | noop | halt => rfl

/-! ### Decoding bytes -/

/-- A byte whose descriptor gives an instruction with an operand byte, present exactly when there is a mode, decodes to
that instruction and leaves the bytes after it. -/
theorem decodeBytes_of_toInstr {b : Byte} {k : Option Byte} {i : Instr}
    (hmode : (decode b).addressingMode.isSome = k.isSome) (hi : (decode b).toInstr k = some i) (rest : List Byte) :
    decodeBytes (b :: (k.toList ++ rest)) = .instr i rest := by
  unfold decodeBytes
  cases k with
  | none =>
    have hnone : (decode b).addressingMode = none := by simpa using hmode
    simp [hnone, Descriptor.decoded, hi]
  | some k =>
    obtain ⟨m, hm⟩ := Option.isSome_iff_exists.mp hmode
    simp [hm, Descriptor.decoded, hi]

/-- Settles O1: the opcode decodes to the instruction's descriptor (`decode_opcode`), which with the operand byte gives
the instruction back (`toInstr_descriptor`). -/
theorem decodeOfEncodeIsTheInstruction : Obligations.DecodeOfEncodeIsTheInstruction := by
  unfold Obligations.DecodeOfEncodeIsTheInstruction
  intro i rest hi
  have hopcode := decode_opcode hi
  exact decodeBytes_of_toInstr (by rw [hopcode, isSome_mode_descriptor]) (by rw [hopcode, toInstr_descriptor]) rest

/-- What an opcode byte followed by `k` stands for: a well-formed instruction, which takes `k` exactly when the
descriptor has a mode (R91, R93). -/
theorem exists_toInstr_decode (b k : Byte) :
    ∃ i, (decode b).toInstr i.operandByte = some i ∧ i.wellFormed = true ∧
      (decode b).addressingMode.isSome = i.operandByte.isSome ∧ (i.operandByte = none ∨ i.operandByte = some k) := by
  obtain ⟨hconsistent, hrotl⟩ := decode_consistent b
  cases hmode : (decode b).addressingMode with
  | none =>
    obtain ⟨i, hi, hwf, hoperand⟩ := toInstr_of_no_mode hconsistent hrotl hmode
    exact ⟨i, by rw [hoperand, hi], hwf, by rw [hoperand]; rfl, .inl hoperand⟩
  | some m =>
    obtain ⟨i, hi, hwf, hoperand⟩ := toInstr_of_mode hconsistent (by simp [hmode]) k
    exact ⟨i, by rw [hoperand, hi], hwf, by rw [hoperand]; rfl, .inr hoperand⟩

/-- Settles O2: the byte's descriptor gives an instruction (`exists_toInstr_decode`), whose descriptor it therefore is
(`eq_descriptor_of_toInstr`), and so is that of the instruction's own opcode (`decode_opcode`). -/
theorem everyOpcodeByteIsAnInstruction : Obligations.EveryOpcodeByteIsAnInstruction := by
  unfold Obligations.EveryOpcodeByteIsAnInstruction
  intro b k rest
  obtain ⟨hconsistent, -⟩ := decode_consistent b
  obtain ⟨i, hi, hwf, hmode, hoperand⟩ := exists_toInstr_decode b k
  have hlength : i.length = (decode b).length := by rw [Instr.length, Descriptor.length, hmode]
  have hopcode : decode i.opcode = decode b := (decode_opcode hwf).trans (eq_descriptor_of_toInstr hconsistent hi).symm
  refine ⟨hconsistent, i, hwf, hlength, ?_, hopcode, hoperand⟩
  rcases hoperand with hnone | hsome
  · simpa [Instr.length, hnone] using decodeBytes_of_toInstr hmode hi (k :: rest)
  · simpa [Instr.length, hsome] using decodeBytes_of_toInstr hmode hi rest

/-! ### The decision tree, family by family

The tables of the tree as the statements write them, then each family at the fields of its bytes. -/

theorem shiftFunction_val (hi : Fin 4) : shiftFunction hi = ![.sftr, .rotr, .sftl, .sftr] hi := by revert hi; decide
theorem bitFunction_val (hi : Fin 4) : bitFunction hi = ![.set0, .set1, .skp0, .skp1] hi := by revert hi; decide
theorem jumpFunction_val (j : Fin 4) : jumpFunction j = ![.jpd, .jpi, .jmd, .jmi] j := by revert j; decide
theorem aluFunction_val (o : Fin 4) : aluFunction o = ![.add, .sub, .load, .store] o := by revert o; decide

theorem bitwiseFunction_val {o : Fin 4} (ho : o ≠ 1) : bitwiseFunction o = ![.or, .noop, .and, .lneg] o := by
  revert o; decide

theorem modeOfLow_val (low : Fin 5) :
    modeOfLow (3 + low) = some (![.constant, .memory, .indirect, .indexed, .indirectIndexed] low) := by
  revert low; decide

theorem condOfLow_val (low : Fin 5) : condOfLow (3 + low) = some (![.nzero, .zero, .neg, .pos, .posNz] low) := by
  revert low; decide

theorem regOfHi_val (hi : Fin 3) : regOfHi hi = some (![.a, .b, .x] hi) := by revert hi; decide

theorem regOfHi_val_or_none (hi : Fin 4) :
    regOfHi hi = ![some .a, some .b, some .x, none] hi ∧ ((regOfHi hi).isSome ↔ hi ≠ 3) := by
  revert hi; decide

theorem jumpMode_val (j : Fin 4) :
    (if j.val % 2 = 0 then Mode.memory else .indirect) = ![.memory, .indirect, .memory, .indirect] j := by
  revert j; decide

theorem testBit_one_iff (hi : Fin 4) : hi.val.testBit 1 = true ↔ 2 ≤ hi.val := by revert hi; decide
theorem testBit_two_iff (mid : Fin 8) : mid.val.testBit 2 = true ↔ 4 ≤ mid.val := by revert mid; decide

/-- Settles O3, by the equations `decode_zeroOperand`, `decode_shift` and `decode_bitOp` at the fields of the byte. -/
theorem zeroOperandShiftAndBitFamiliesDecode : Obligations.ZeroOperandShiftAndBitFamiliesDecode := by
  unfold Obligations.ZeroOperandShiftAndBitFamiliesDecode
  intro hi mid
  have hzero : decode (opcodeByte hi mid 0) =
      ⟨if hi.val.testBit 1 then .noop else .halt, none, none, none, none, false⟩ := by
    obtain ⟨hhi, -, hlow⟩ := fields_opcodeByte hi.isLt mid.isLt (by decide : 0 < 8)
    simp only [decode_zeroOperand hlow, hhi, testBit_one_iff]
  have hshift : decode (opcodeByte hi mid 1) =
      ⟨![.sftr, .rotr, .sftl, .sftr] hi, none, some (if mid.val.testBit 2 then .b else .a),
        some (if mid.val &&& 3 = 0 then 4 else Fin.ofNat 8 (mid.val &&& 3)), none, false⟩ := by
    obtain ⟨hhi, hmid, hlow⟩ := fields_opcodeByte hi.isLt mid.isLt (by decide : 1 < 8)
    have hcount : mid.val &&& 3 = mid.val % 4 := Nat.and_two_pow_sub_one_eq_mod mid.val 2
    simp only [decode_shift hlow, hhi, hmid, hcount, placesOf, shiftFunction_val, testBit_two_iff]
  have hbit : decode (opcodeByte hi mid 2) =
      ⟨![.set0, .set1, .skp0, .skp1] hi, some .memory, none, some mid, none, false⟩ := by
    rw [decode_bitOpcode hi.isLt mid, bitFunction_val]
  exact ⟨⟨hzero, by rw [hzero]; rfl⟩, ⟨hshift, by rw [hshift]; rfl⟩, hbit, by rw [hbit]; rfl⟩

/-- Settles O4, by the equations `decode_jump`, `decode_bitwise` and `decode_alu` at the fields of the byte. -/
theorem jumpBitwiseAndAluFamiliesDecode : Obligations.JumpBitwiseAndAluFamiliesDecode := by
  unfold Obligations.JumpBitwiseAndAluFamiliesDecode
  intro low
  have hlow8 : 3 + low.val < 8 := by omega
  refine ⟨fun hi j => ?_, fun o => ?_, fun hi o => ?_⟩
  · obtain ⟨hhi, hmid, hlow⟩ := fields_opcodeByte hi.isLt (by omega : 4 + j.val < 8) hlow8
    obtain ⟨hreg, hsome⟩ := regOfHi_val_or_none hi
    have hkind : (4 + j.val) % 4 = j.val := by omega
    rw [decode_jump (by omega) (by omega), hhi, hmid, hlow, hkind, jumpFunction_val, jumpMode_val, condOfLow_val]
    simp only [hsome, ne_eq, ite_not]
    rw [hreg]
  · obtain ⟨hhi, hmid, hlow⟩ := fields_opcodeByte (by decide : 3 < 4) (by omega : o.val < 8) hlow8
    by_cases ho : o = 1
    · rw [if_pos ho, decode_bitwiseNoop (by omega) (by omega) hhi]
    · have hne : o.val ≠ 1 := fun h => ho (Fin.ext h)
      rw [if_neg ho, decode_bitwise (by omega) (by omega) (by omega) hhi, hmid, hlow, bitwiseFunction_val ho,
        modeOfLow_val]
  · obtain ⟨hhi, hmid, hlow⟩ := fields_opcodeByte (by omega : hi.val < 4) (by omega : o.val < 8) hlow8
    rw [decode_alu (by omega) (by omega) (by omega), hhi, hmid, hlow, aluFunction_val, modeOfLow_val, regOfHi_val]

/-- Settles O5: each word is evaluated. -/
theorem wordsOfTheSpecDecode : Obligations.WordsOfTheSpecDecode := by
  unfold Obligations.WordsOfTheSpecDecode
  decide

/-! ### Which opcode bytes have one descriptor (R104) -/

/-- The functions by the step of the decision tree that answers them; NOOP is answered by two steps and stands with HALT,
since neither has an operand (R94, R98). -/
inductive Family where
  | control | shift | bitOp | jump | bitwise | alu

/-- The family of a function. -/
def FunctionId.family : FunctionId → Family
  | .noop | .halt => .control
  | .sftl | .sftr | .rotl | .rotr => .shift
  | .skp0 | .skp1 | .set0 | .set1 => .bitOp
  | .jpd | .jpi | .jmd | .jmi => .jump
  | .or | .and | .lneg => .bitwise
  | .add | .sub | .load | .store => .alu

/-- The family of an opcode byte's function, from the byte's fields. -/
def opcodeFamily (b : Byte) : Family :=
  if lowField b = 0 then .control
  else if lowField b = 1 then .shift
  else if lowField b = 2 then .bitOp
  else if 4 ≤ midField b then .jump
  else if hiField b ≠ 3 then .alu
  else if midField b = 1 then .control
  else .bitwise

theorem family_shiftFunction (n : Nat) : (shiftFunction n).family = .shift := by unfold shiftFunction; split <;> rfl
theorem family_bitFunction (n : Nat) : (bitFunction n).family = .bitOp := by unfold bitFunction; split <;> rfl
theorem family_jumpFunction (n : Nat) : (jumpFunction n).family = .jump := by unfold jumpFunction; split <;> rfl
theorem family_bitwiseFunction (n : Nat) : (bitwiseFunction n).family = .bitwise := by
  unfold bitwiseFunction; split <;> rfl
theorem family_aluFunction (n : Nat) : (aluFunction n).family = .alu := by unfold aluFunction; split <;> rfl

theorem family_function_decode (b : Byte) : (decode b).function.family = opcodeFamily b := by
  unfold opcodeFamily
  split
  next hlow => rw [decode_zeroOperand hlow]; dsimp only; split <;> rfl
  split
  next hlow => rw [decode_shift hlow, family_shiftFunction]
  split
  next hlow => rw [decode_bitOp hlow, family_bitFunction]
  split
  next hmid => rw [decode_jump (by omega) hmid, family_jumpFunction]
  split
  next hhi => rw [decode_alu (by omega) (by omega) hhi, family_aluFunction]
  split
  next hmid => rw [decode_bitwiseNoop (by omega) hmid (by omega)]; rfl
  next hmid => rw [decode_bitwise (by omega) (by omega) hmid (by omega), family_bitwiseFunction]

/-- The fields of the bytes of each family (R94 to R99); what they are for NOOP and HALT is not needed. -/
def Family.FieldsOf (b : Byte) : Family → Prop
  | .control => True
  | .shift => lowField b = 1
  | .bitOp => lowField b = 2
  | .jump => 3 ≤ lowField b ∧ 4 ≤ midField b
  | .bitwise => 3 ≤ lowField b ∧ midField b < 4 ∧ midField b ≠ 1 ∧ hiField b = 3
  | .alu => 3 ≤ lowField b ∧ midField b < 4 ∧ hiField b ≠ 3

theorem fieldsOf_opcodeFamily (b : Byte) : (opcodeFamily b).FieldsOf b := by
  unfold opcodeFamily
  split_ifs <;> simp only [Family.FieldsOf] <;> omega

/-! What each table loses: nothing, but for SFTR, which has two places in its table. -/

theorem shiftFunction_eq_cases :
    ∀ m < 4, ∀ n < 4, shiftFunction m = shiftFunction n → m = n ∨ ((m = 0 ∨ m = 3) ∧ (n = 0 ∨ n = 3)) := by decide
theorem bitFunction_injective : ∀ m < 4, ∀ n < 4, bitFunction m = bitFunction n → m = n := by decide
theorem jumpFunction_injective : ∀ m < 4, ∀ n < 4, jumpFunction m = jumpFunction n → m = n := by decide
theorem aluFunction_injective : ∀ m < 4, ∀ n < 4, aluFunction m = aluFunction n → m = n := by decide
theorem bitwiseFunction_injective :
    ∀ m < 4, m ≠ 1 → ∀ n < 4, n ≠ 1 → bitwiseFunction m = bitwiseFunction n → m = n := by decide
theorem regOfHi_injective : ∀ m < 4, ∀ n < 4, regOfHi m = regOfHi n → m = n := by decide
theorem isSome_regOfHi : ∀ m < 4, m ≠ 3 → (regOfHi m).isSome = true := by decide
theorem modeOfLow_injective : ∀ m < 8, 3 ≤ m → ∀ n < 8, 3 ≤ n → modeOfLow m = modeOfLow n → m = n := by decide
theorem condOfLow_injective : ∀ m < 8, 3 ≤ m → ∀ n < 8, 3 ≤ n → condOfLow m = condOfLow n → m = n := by decide

/-- The register and the place count of the shift family give `mid` back (R95). -/
theorem mid_eq_of_shiftFields : ∀ m < 8, ∀ n < 8, (if 4 ≤ m then Reg.b else .a) = (if 4 ≤ n then Reg.b else .a) →
    placesOf (m % 4) = placesOf (n % 4) → m = n := by decide

section SameDescriptor
variable {b c : Byte}

theorem fields_of_decode_eq_shift (hb : lowField b = 1) (hc : lowField c = 1) (h : decode b = decode c) :
    midField b = midField c ∧
      (hiField b = hiField c ∨ ((hiField b = 0 ∨ hiField b = 3) ∧ (hiField c = 0 ∨ hiField c = 3))) := by
  rw [decode_shift hb, decode_shift hc] at h
  injection h with hfunction _ hreg hplaces
  exact ⟨mid_eq_of_shiftFields _ (midField_lt b) _ (midField_lt c) (Option.some.inj hreg) (Option.some.inj hplaces),
    shiftFunction_eq_cases _ (hiField_lt b) _ (hiField_lt c) hfunction⟩

theorem eq_of_decode_eq_bitOp (hb : lowField b = 2) (hc : lowField c = 2) (h : decode b = decode c) : b = c := by
  rw [decode_bitOp hb, decode_bitOp hc] at h
  injection h with hfunction _ _ hposition
  have hmid : midField b % 8 = midField c % 8 := congrArg Fin.val (Option.some.inj hposition)
  rw [Nat.mod_eq_of_lt (midField_lt b), Nat.mod_eq_of_lt (midField_lt c)] at hmid
  exact eq_of_fields (bitFunction_injective _ (hiField_lt b) _ (hiField_lt c) hfunction) hmid (hb.trans hc.symm)

theorem fields_of_decode_eq_jump (hb : 3 ≤ lowField b ∧ 4 ≤ midField b) (hc : 3 ≤ lowField c ∧ 4 ≤ midField c)
    (h : decode b = decode c) :
    hiField b = hiField c ∧ midField b = midField c ∧ (hiField b ≠ 3 → lowField b = lowField c) := by
  obtain ⟨hlowb, hmidb⟩ := hb
  obtain ⟨hlowc, hmidc⟩ := hc
  rw [decode_jump hlowb hmidb, decode_jump hlowc hmidc] at h
  injection h with hfunction _ hreg _ hcond
  have hhi := regOfHi_injective _ (hiField_lt b) _ (hiField_lt c) hreg
  have hkind := jumpFunction_injective _ (Nat.mod_lt _ (by decide)) _ (Nat.mod_lt _ (by decide)) hfunction
  have hltb := midField_lt b
  have hltc := midField_lt c
  refine ⟨hhi, by omega, fun hne => ?_⟩
  have hsome := isSome_regOfHi _ (hiField_lt b) hne
  rw [← hhi, if_pos hsome, if_pos hsome] at hcond
  exact condOfLow_injective _ (lowField_lt b) hlowb _ (lowField_lt c) hlowc hcond

theorem eq_of_decode_eq_bitwise (hb : Family.bitwise.FieldsOf b) (hc : Family.bitwise.FieldsOf c)
    (h : decode b = decode c) : b = c := by
  obtain ⟨hlowb, hmidb, hneb, hhib⟩ := hb
  obtain ⟨hlowc, hmidc, hnec, hhic⟩ := hc
  rw [decode_bitwise hlowb hmidb hneb hhib, decode_bitwise hlowc hmidc hnec hhic] at h
  injection h with hfunction hmode
  exact eq_of_fields (hhib.trans hhic.symm) (bitwiseFunction_injective _ hmidb hneb _ hmidc hnec hfunction)
    (modeOfLow_injective _ (lowField_lt b) hlowb _ (lowField_lt c) hlowc hmode)

theorem eq_of_decode_eq_alu (hb : Family.alu.FieldsOf b) (hc : Family.alu.FieldsOf c)
    (h : decode b = decode c) : b = c := by
  obtain ⟨hlowb, hmidb, hhib⟩ := hb
  obtain ⟨hlowc, hmidc, hhic⟩ := hc
  rw [decode_alu hlowb hmidb hhib, decode_alu hlowc hmidc hhic] at h
  injection h with hfunction hmode hreg
  exact eq_of_fields (regOfHi_injective _ (hiField_lt b) _ (hiField_lt c) hreg)
    (aluFunction_injective _ hmidb _ hmidc hfunction)
    (modeOfLow_injective _ (lowField_lt b) hlowb _ (lowField_lt c) hlowc hmode)

/-- NOOP and HALT have one descriptor each: no field of it is present (R101). -/
theorem decode_of_function_halt (hb : (decode b).function = .halt) : decode b = Instr.halt.descriptor :=
  eq_descriptor_of_toInstr (k := none) (decode_consistent b).1 (by simp [Descriptor.toInstr, hb])

theorem decode_of_function_noop (hb : (decode b).function = .noop) : decode b = Instr.noop.descriptor :=
  eq_descriptor_of_toInstr (k := none) (decode_consistent b).1 (by simp [Descriptor.toInstr, hb])

theorem FunctionId.eq_of_family_control {f : FunctionId} (hf : f.family = .control) : f = .halt ∨ f = .noop := by
  cases f <;> simp_all [FunctionId.family]

/-- `hi` 0 and 3 are both SFTR (R95). -/
theorem decode_eq_of_sftr (hb : lowField b = 1) (hc : lowField c = 1) (hmid : midField b = midField c)
    (hhib : hiField b = 0 ∨ hiField b = 3) (hhic : hiField c = 0 ∨ hiField c = 3) : decode b = decode c := by
  have hsftr {n : Nat} (hn : n = 0 ∨ n = 3) : shiftFunction n = .sftr := by rcases hn with rfl | rfl <;> rfl
  rw [decode_shift hb, decode_shift hc, hmid, hsftr hhib, hsftr hhic]

/-- With no register, `low` is ignored (R97, D23). -/
theorem decode_eq_of_unconditional (hlowb : 3 ≤ lowField b) (hlowc : 3 ≤ lowField c) (hmidb : 4 ≤ midField b)
    (hmid : midField b = midField c) (hhib : hiField b = 3) (hhic : hiField c = 3) : decode b = decode c := by
  rw [decode_jump hlowb hmidb, decode_jump hlowc (hmid ▸ hmidb), hmid, hhib, hhic]
  rfl

end SameDescriptor

/-- Settles O6. Two bytes of one descriptor are in one family, and within a family the descriptor gives the fields back,
but for `hi` in SFTR and `low` in an unconditional jump. -/
theorem aliasedOpcodesAreExactlyTheListedOnes : Obligations.AliasedOpcodesAreExactlyTheListedOnes := by
  unfold Obligations.AliasedOpcodesAreExactlyTheListedOnes
  intro b c
  constructor
  · intro h
    have hb := fieldsOf_opcodeFamily b
    have hc := fieldsOf_opcodeFamily c
    rw [← family_function_decode, ← h, family_function_decode] at hc
    cases hf : opcodeFamily b <;> rw [hf] at hb hc
    case control =>
      rw [← family_function_decode] at hf
      rw [← h]
      rcases FunctionId.eq_of_family_control hf with hhalt | hnoop
      · exact .inr (.inl ⟨hhalt, hhalt⟩)
      · exact .inr (.inr (.inl ⟨hnoop, hnoop⟩))
    case shift =>
      obtain ⟨hmid, hhi | ⟨hhib, hhic⟩⟩ := fields_of_decode_eq_shift hb hc h
      · exact .inl (eq_of_fields hhi hmid (hb.trans hc.symm))
      · exact .inr (.inr (.inr (.inl ⟨hb, hc, hmid, hhib, hhic⟩)))
    case bitOp => exact .inl (eq_of_decode_eq_bitOp hb hc h)
    case jump =>
      obtain ⟨hhi, hmid, hlow⟩ := fields_of_decode_eq_jump hb hc h
      obtain ⟨hlowb, hmidb⟩ := hb
      obtain ⟨hlowc, -⟩ := hc
      by_cases hhib : hiField b = 3
      · exact .inr (.inr (.inr (.inr ⟨hlowb, hlowc, hmidb, hmid, hhib, hhi ▸ hhib⟩)))
      · exact .inl (eq_of_fields hhi hmid (hlow hhib))
    case bitwise => exact .inl (eq_of_decode_eq_bitwise hb hc h)
    case alu => exact .inl (eq_of_decode_eq_alu hb hc h)
  · rintro (rfl | ⟨hb, hc⟩ | ⟨hb, hc⟩ | ⟨hb, hc, hmid, hhib, hhic⟩ | ⟨hlowb, hlowc, hmidb, hmid, hhib, hhic⟩)
    · rfl
    · rw [decode_of_function_halt hb, decode_of_function_halt hc]
    · rw [decode_of_function_noop hb, decode_of_function_noop hc]
    · exact decode_eq_of_sftr hb hc hmid hhib hhic
    · exact decode_eq_of_unconditional hlowb hlowc hmidb hmid hhib hhic

end Sys2Proof

namespace Sys2Proof.Machine

/-! ### The internal-consistency fault (60_exceptions.md R242) -/

section
variable {d : Descriptor}

/-- A descriptor that stands for no instruction raises the fault, ROTL's only where a field is missing. -/
theorem execute_of_toInstr_eq_none {k : Option Byte} (hi : d.toInstr k = none)
    (hrotl : d.function = .rotl → d.registerOperand = none ∨ d.bitPosition = none) (s : State) :
    execute d k s = .fault (.internalConsistency d.function) := by
  unfold execute
  split
  next hf =>
    rw [hf]
    split
    next hr hn => exact absurd (hrotl hf) (by simp [hr, hn])
    next => rfl
  next =>
    rw [hi]
    rfl

/-! In each of the next four lemmas, every arm of `toInstr` for a listed function reads the missing field. -/

/-- The functions whose descriptor always has a register (R101). -/
theorem toInstr_eq_none_of_no_register (hr : d.registerOperand = none)
    (hf : d.function ∈ [.add, .sub, .load, .store, .or, .and, .lneg, .sftl, .sftr, .rotl, .rotr]) (k : Option Byte) :
    d.toInstr k = none := by
  unfold Descriptor.toInstr
  split <;> simp_all

/-- The jumps, whose condition needs a register (R97). -/
theorem toInstr_eq_none_of_no_condition_register (hr : d.registerOperand = none) (hc : d.jumpCondition ≠ none)
    (hf : d.function ∈ [.jpd, .jpi, .jmd, .jmi]) (k : Option Byte) : d.toInstr k = none := by
  have htest : d.jumpTest = none := by
    obtain ⟨c, hc⟩ := Option.ne_none_iff_exists'.mp hc
    simp [Descriptor.jumpTest, hr, hc]
  unfold Descriptor.toInstr
  split <;> simp_all

/-- The functions whose descriptor has a bit position or a place count (R101). -/
theorem toInstr_eq_none_of_no_position (hn : d.bitPosition = none)
    (hf : d.function ∈ [.sftl, .sftr, .rotl, .rotr, .skp0, .skp1, .set0, .set1]) (k : Option Byte) :
    d.toInstr k = none := by
  unfold Descriptor.toInstr
  split <;> simp_all

/-- The functions whose descriptor has a mode (R101). -/
theorem toInstr_eq_none_of_no_mode (hm : d.addressingMode = none)
    (hf : d.function ∈
      [.add, .sub, .load, .store, .or, .and, .lneg, .jpd, .jpi, .jmd, .jmi, .skp0, .skp1, .set0, .set1])
    (k : Option Byte) : d.toInstr k = none := by
  unfold Descriptor.toInstr
  split <;> simp_all

end

/-- Settles O10: each clause's descriptor stands for no instruction, and one of ROTL's lacks the register or the count. -/
theorem missingFieldIsTheInternalFault : Obligations.MissingFieldIsTheInternalFault := by
  unfold Obligations.MissingFieldIsTheInternalFault
  intro d k s
  refine ⟨fun hr hf => ?_, fun hr hc hf => ?_, fun hn hf => ?_, fun hm hf => ?_⟩
  · exact execute_of_toInstr_eq_none (toInstr_eq_none_of_no_register hr hf k) (fun _ => .inl hr) s
  · exact execute_of_toInstr_eq_none (toInstr_eq_none_of_no_condition_register hr hc hf k) (fun _ => .inl hr) s
  · exact execute_of_toInstr_eq_none (toInstr_eq_none_of_no_position hn hf k) (fun _ => .inr hn) s
  · exact execute_of_toInstr_eq_none (toInstr_eq_none_of_no_mode hm hf k) (fun hrotl => by simp [hrotl] at hf) s

/-! ### ROTL (45_shift_rotate.md R198) -/

theorem reg_setReg_self (s : State) (r : Reg) (v : Byte) : (s.setReg r v).reg r = v := State.get_set_self s (bankReg r) v

theorem onlyRegister_setReg (s : State) (r : Reg) (v : Byte) : OnlyRegister (bankReg r) s (s.setReg r v) :=
  onlyRegister_set s (bankReg r) v

/-- ROTL's dispatch arm on a descriptor with a register and a count. -/
theorem execute_rotl {d : Descriptor} {r : Reg} {n : Fin 8} (hf : d.function = .rotl) (hr : d.registerOperand = some r)
    (hn : d.bitPosition = some n) (k : Option Byte) (s : State) :
    execute d k s = .next (s.setReg r (rotatedLeft (s.reg r) n)) := by
  simp [execute, hf, hr, hn, execRotl]

/-- A left rotation moves bit `j` to `j + n` modulo 8: the left shift moves it where it stays below 8, the right shift by
the complement where it wraps. -/
theorem getLsbD_rotatedLeft (v : Byte) (n j : Fin 8) :
    (rotatedLeft v n).getLsbD ((j.val + n.val) % 8) = v.getLsbD j := by
  simp only [rotatedLeft, BitVec.getLsbD_or, BitVec.getLsbD_shiftLeft, BitVec.getLsbD_ushiftRight]
  by_cases hwrap : j.val + n.val < 8
  · have hhigh : v.getLsbD (8 - n.val + (j.val + n.val)) = false := BitVec.getLsbD_of_ge _ _ (by omega)
    simp [Nat.mod_eq_of_lt hwrap, hwrap, hhigh]
  · have hmod : (j.val + n.val) % 8 = j.val + n.val - 8 := by omega
    have hbelow : j.val + n.val - 8 < n.val := by omega
    have hindex : 8 - n.val + (j.val + n.val - 8) = j.val := by omega
    simp [hmod, hbelow, hindex]

/-- Settles O46: no byte's function is ROTL, `hi = 3` is SFTR in the shift family's table, and the arm is one write of a
register. -/
theorem rotlIsADispatchArmWithoutAnOpcode : Obligations.RotlIsADispatchArmWithoutAnOpcode := by
  unfold Obligations.RotlIsADispatchArmWithoutAnOpcode
  refine ⟨fun b => ⟨(decode_consistent b).2, fun hlow hhi => ?_⟩, fun d k s r n hf hr hn => ?_⟩
  · rw [decode_shift hlow, hhi]
    rfl
  · refine ⟨_, execute_rotl hf hr hn k s, fun j => ?_, onlyRegister_setReg s r _⟩
    rw [reg_setReg_self, getLsbD_rotatedLeft]

end Sys2Proof.Machine
end

section
/-! PROOFS. The engine (40_engine_step.md): the halted and the executed step, what a step does to the engine's state, runs
of any length, and the burst. -/

namespace Sys2Proof.Machine

/-! ### The executed step -/

/-- Settles O7: the shape of the executed step, `finishStep` being the charge and then the notifications. -/
theorem stepRunsTheDecodedInstruction : Obligations.StepRunsTheDecodedInstruction := by
  unfold Obligations.StepRunsTheDecodedInstruction
  intro s i hh hi
  exact step_of_nextInstr hh hi

theorem exec_completes (i : Instr) (s : State) : Completes (exec i s) := by
  rcases exec_cases i s with ⟨-, h⟩ | ⟨u, -, h | ⟨q, v, h⟩⟩
  · exact ⟨_, h⟩
  · exact ⟨_, h⟩
  · exact ⟨_, h⟩

/-- Settles O9: a halted step answers by its definition, an executed one because its instruction does. -/
theorem everyStepCompletes : Obligations.EveryStepCompletes := by
  unfold Obligations.EveryStepCompletes
  intro s
  obtain ⟨i, hi, hwf, -⟩ := fetch_spec s
  refine ⟨?_, i, hi, hwf⟩
  rcases step_cases s with ⟨-, hstep⟩ | ⟨-, j, -, -, hstep⟩
  · exact ⟨_, hstep⟩
  · obtain ⟨u, hu⟩ := exec_completes j (advance s (BitVec.ofNat 8 j.length))
    exact ⟨finishStep u, by rw [hstep, hu, onNext_next]⟩

/-! ### The placing of a word -/

/-- Neither byte of a placed word lies at P's own address: a word at 2 or 3 is moved to 4. -/
theorem fetchPlace_ne (p : Byte) : fetchPlace p ≠ 3#8 ∧ fetchPlace p + 1#8 ≠ 3#8 := by
  revert p; decide

@[simp] theorem placeFetchWord_halt (s : State) (nbits w : Nat) : (placeFetchWord s nbits w).halt = false := by
  simp [placeFetchWord]

/-- The placing leaves P at the place of the opcode byte. -/
theorem placeFetchWord_p (s : State) (nbits w : Nat) :
    (placeFetchWord s nbits w).get .p = fetchPlace (s.get .p) := by
  obtain ⟨hopcode, hoperand⟩ := fetchPlace_ne (s.get .p)
  rw [placeFetchWord, memWrite_get, if_neg (mt regAt_eq_p.mp hoperand), memWrite_get,
    if_neg (mt regAt_eq_p.mp hopcode), State.get_set_self]

theorem memRead_placeFetchWord_opcode (s : State) (nbits w : Nat) :
    memRead (placeFetchWord s nbits w) (fetchPlace (s.get .p)) = (tableBytes nbits w).1 := by
  have hne : fetchPlace (s.get .p) ≠ fetchPlace (s.get .p) + 1#8 := by simp
  rw [placeFetchWord, memRead_memWrite_ne hne, memRead_memWrite_self]

theorem memRead_placeFetchWord_operand (s : State) (nbits w : Nat) :
    memRead (placeFetchWord s nbits w) (fetchPlace (s.get .p) + 1#8) = (tableBytes nbits w).2 := by
  rw [placeFetchWord, memRead_memWrite_self]

/-- The fetch of a placed word reads the word's two bytes, so it decodes as the word does. -/
theorem nextInstr_placeFetchWord (s : State) (nbits w : Nat) :
    nextInstr (placeFetchWord s nbits w) = decodeTableWord nbits w := by
  obtain ⟨-, hoperand⟩ := fetchPlace_ne (s.get .p)
  unfold nextInstr
  rw [placeFetchWord_p, memRead_placeFetchWord_opcode, memRead_advance hoperand, memRead_placeFetchWord_operand]
  rfl

/-- Settles O8: the placed engine runs (`placeFetchWord_halt`), its next instruction is the word's
(`nextInstr_placeFetchWord`), and so its step is that instruction's (O7). -/
theorem placedWordIsTheNextInstruction : Obligations.PlacedWordIsTheNextInstruction := by
  unfold Obligations.PlacedWordIsTheNextInstruction
  intro s nbits w i hw
  have hhalt : (s.withFetchWord nbits w).halt = false := placeFetchWord_halt s nbits w
  have hnext : nextInstr (s.withFetchWord nbits w) = some i := (nextInstr_placeFetchWord s nbits w).trans hw
  exact ⟨hhalt, hnext, stepRunsTheDecodedInstruction _ i hhalt hnext⟩

/-! ### The halted step -/

theorem step_of_halted {s : State} (hh : s.halt = true) : step s = .next { s with budget := 0 } := by
  simp [step, engineStep, haltedStep, hh]

theorem stepAccesses_of_halted {s : State} (hh : s.halt = true) : stepAccesses s = [] := by
  simp [stepAccesses, hh]

@[simp] theorem memRead_with_budget (s : State) (n : Int) (a : Byte) :
    memRead { s with budget := n } a = memRead s a :=
  memRead_congr (by simp) rfl a

/-- Settles O13: the halted step's next state differs from the state in the budget alone. -/
theorem haltedStepOnlyEmptiesTheBudget : Obligations.HaltedStepOnlyEmptiesTheBudget := by
  unfold Obligations.HaltedStepOnlyEmptiesTheBudget
  intro s hh
  exact ⟨stepAccesses_of_halted hh, { s with budget := 0 }, step_of_halted hh, rfl,
    fun q => State.get_with_budget s q 0, fun a => memRead_with_budget s 0 a, hh, rfl, rfl⟩

/-! ### What an instruction and a step do to the engine's state -/

/-- HALT is the one instruction that touches the engine's state (46_noop_halt.md R206). -/
theorem exec_keepsEngine {i : Instr} {s t : State} (hi : i ≠ .halt) (h : exec i s = .next t) : KeepsEngine s t := by
  rcases exec_cases i s with ⟨hhalt, -⟩ | ⟨u, hu, hexec⟩
  · exact absurd hhalt hi
  · have hkeeps : KeepsEngine s u := by
      rcases hu with rfl | ⟨a, v, rfl⟩
      · exact ⟨rfl, rfl, rfl, rfl⟩
      · obtain ⟨-, -, hengine⟩ := onlyCell_memWrite s a v
        exact hengine
    rcases hexec with hexec | ⟨q, v, hexec⟩ <;> obtain rfl := Host.Outcome.next.inj (hexec.symm.trans h)
    · exact hkeeps
    · simpa [KeepsEngine] using hkeeps

/-- An instruction's own effect on the engine's state: HALT sets the flag, and that is all. -/
theorem exec_engine {i : Instr} {s t : State} (h : exec i s = .next t) :
    (t.halt = true ↔ s.halt = true ∨ i = .halt) ∧ t.latch = s.latch ∧ t.budget = s.budget ∧ t.trace = s.trace := by
  by_cases hi : i = .halt
  · subst hi
    obtain rfl : { s with halt := true } = t := Host.Outcome.next.inj h
    simp
  · obtain ⟨hhalt, hrest⟩ := exec_keepsEngine hi h
    exact ⟨by simp [hhalt, hi], hrest⟩

/-- What a step can do to the engine's state: a halted one empties the budget and leaves the rest; an executed one
charges, adds one pair to the record, and halts by HALT alone. -/
theorem step_engine_cases {s t : State} (h : step s = .next t) :
    (s.halt = true ∧ t = { s with budget := 0 }) ∨
      (s.halt = false ∧ (t.halt = true ↔ nextInstr s = some .halt) ∧ t.latch = s.latch ∧
        t.budget = s.budget - Config.stepCost ∧ t.trace = .halt t.halt :: .out (t.get .out) :: s.trace) := by
  rcases step_cases s with ⟨hh, hstep⟩ | ⟨hh, i, hi, -, hstep⟩
  · exact .inl ⟨hh, (Host.Outcome.next.inj (hstep.symm.trans h)).symm⟩
  · obtain ⟨u, hexec, rfl⟩ := onNext_eq_next.mp (hstep.symm.trans h)
    obtain ⟨hhalt, hlatch, hbudget, htrace⟩ := exec_engine hexec
    refine .inr ⟨hh, ?_, hlatch, ?_, ?_⟩
    · simpa [hh, hi] using hhalt
    · rw [finishStep_budget, hbudget, advance_budget]
    · rw [finishStep_trace, htrace, finishStep_halt, finishStep_get, advance_trace]

/-- Settles O14: the executed case of `step_engine_cases`, with the cost positive by `stepCost_pos`. -/
theorem executedStepChargesAndNotifies : Obligations.ExecutedStepChargesAndNotifies := by
  unfold Obligations.ExecutedStepChargesAndNotifies
  refine ⟨stepCost_pos, fun s t hh hstep => ?_⟩
  rcases step_engine_cases hstep with ⟨hhalted, -⟩ | ⟨-, -, hlatch, hbudget, htrace⟩
  · simp [hh] at hhalted
  · exact ⟨hbudget, htrace, hlatch⟩

/-- The halt flag after a step (40_engine_step.md R130; 46_noop_halt.md R206). -/
theorem halt_after_step_iff {s t : State} (h : step s = .next t) :
    t.halt = true ↔ s.halt = true ∨ nextInstr s = some .halt := by
  rcases step_engine_cases h with ⟨hh, rfl⟩ | ⟨hh, hhalt, -⟩
  · simp [hh]
  · simpa [hh] using hhalt

/-- Settles O16: the flag by `halt_after_step_iff`; the end of a run is the flag after the one step a running engine
takes. -/
theorem onlyHaltSetsTheHaltFlag : Obligations.OnlyHaltSetsTheHaltFlag := by
  unfold Obligations.OnlyHaltSetsTheHaltFlag
  intro s t hstep
  refine ⟨halt_after_step_iff hstep, ?_⟩
  constructor
  · rintro ⟨hrunning, u, hu, hhalt⟩
    exact ⟨hrunning, ((halt_after_step_iff hu).mp hhalt).resolve_left (by simp [hrunning])⟩
  · rintro ⟨hrunning, hnext⟩
    exact ⟨hrunning, t, hstep, (halt_after_step_iff hstep).mpr (.inr hnext)⟩

/-! ### Runs of any length -/

/-- The latch is as before, and the record of the sinks is the old one with at most `n` pairs added. -/
def ExtendsByPairs (n : Nat) (s t : State) : Prop :=
  t.latch = s.latch ∧ ∃ l, t.trace = l ++ s.trace ∧ pairedTrace l = true ∧ l.length ≤ 2 * n

theorem pairedTrace_append {l l' : List Notification} (hl : pairedTrace l = true) (hl' : pairedTrace l' = true) :
    pairedTrace (l ++ l') = true := by
  induction l using pairedTrace.induct with
  | case1 => exact hl'
  | case2 b v l ih => exact ih hl
  | case3 l hnil hpair => simp [pairedTrace] at hl

theorem extendsByPairs_refl (s : State) : ExtendsByPairs 0 s s := ⟨rfl, [], rfl, rfl, Nat.le_refl 0⟩

theorem ExtendsByPairs.trans {m n : Nat} {s t u : State} (h : ExtendsByPairs m s t) (h' : ExtendsByPairs n t u) :
    ExtendsByPairs (n + m) s u := by
  obtain ⟨hlatch, l, htrace, hpaired, hlength⟩ := h
  obtain ⟨hlatch', l', htrace', hpaired', hlength'⟩ := h'
  refine ⟨hlatch'.trans hlatch, l' ++ l, ?_, pairedTrace_append hpaired' hpaired, ?_⟩
  · rw [htrace', htrace, List.append_assoc]
  · rw [List.length_append]
    omega

/-- One step adds one pair, a halted one none. -/
theorem step_extendsByPairs {s t : State} (h : step s = .next t) : ExtendsByPairs 1 s t := by
  rcases step_engine_cases h with ⟨-, rfl⟩ | ⟨-, -, hlatch, -, htrace⟩
  · exact ⟨rfl, [], rfl, rfl, by decide⟩
  · exact ⟨hlatch, [.halt t.halt, .out (t.get .out)], htrace, rfl, Nat.le_refl 2⟩

theorem run_succ_of_step {M : Host.Core} {s t : M.State} (h : M.step s = .next t) (n : Nat) :
    M.run (n + 1) s = M.run n t := by
  rw [Host.Core.run, h]

/-- Settles O15, by induction on the number of steps. -/
theorem runsExtendTheRecordByPairs : Obligations.RunsExtendTheRecordByPairs := by
  unfold Obligations.RunsExtendTheRecordByPairs
  intro n
  induction n with
  | zero => exact fun s => ⟨s, rfl, extendsByPairs_refl s⟩
  | succ n ih =>
    intro s
    obtain ⟨⟨u, hstep⟩, -⟩ := everyStepCompletes s
    obtain ⟨t, hrun, hextends⟩ := ih u
    exact ⟨t, (run_succ_of_step (M := core) hstep n).trans hrun, (step_extendsByPairs hstep).trans hextends⟩

/-! ### The burst -/

theorem step_latch {s t : State} (h : step s = .next t) : t.latch = s.latch := by
  obtain ⟨hlatch, -⟩ := step_extendsByPairs h
  exact hlatch

/-- While there is budget, every step takes some of it: the charge of an executed one, all of it for a halted one. -/
theorem step_budget_lt {s t : State} (hs : 0 < s.budget) (h : step s = .next t) : t.budget < s.budget := by
  rcases step_engine_cases h with ⟨-, rfl⟩ | ⟨-, -, -, hbudget, -⟩
  · exact hs
  · have hcost := stepCost_pos
    omega

theorem burstLoop_of_budget_spent {s : State} (hs : s.budget ≤ 0) (fuel : Nat) : burstLoop fuel s = .next s := by
  cases fuel with
  | zero => rfl
  | succ fuel => rw [burstLoop, if_neg (by omega)]

theorem burstLoop_succ {s t : State} (hs : 0 < s.budget) (h : step s = .next t) (fuel : Nat) :
    burstLoop (fuel + 1) s = burstLoop fuel t := by
  rw [burstLoop, if_pos hs, h]

/-- A loop with at least as many rounds as there is budget spends it all. -/
theorem burstLoop_spends (fuel : Nat) (s : State) (hfuel : s.budget ≤ fuel) :
    ∃ t, burstLoop fuel s = .next t ∧ t.budget ≤ 0 ∧ t.latch = s.latch := by
  induction fuel generalizing s with
  | zero => exact ⟨s, rfl, hfuel, rfl⟩
  | succ fuel ih =>
    by_cases hs : 0 < s.budget
    · obtain ⟨⟨u, hstep⟩, -⟩ := everyStepCompletes s
      have hlt := step_budget_lt hs hstep
      obtain ⟨t, hloop, hbudget, hlatch⟩ := ih u (by omega)
      exact ⟨t, (burstLoop_succ hs hstep fuel).trans hloop, hbudget, hlatch.trans (step_latch hstep)⟩
    · exact ⟨s, burstLoop_of_budget_spent (by omega) _, by omega, rfl⟩

/-- The burst of a halted engine is one halted step. -/
theorem burst_of_halted {n : Int} {s : State} (hh : s.halt = true) (hn : 0 < n) :
    burst n s = .next { s with budget := 0 } := by
  have hstep : step { s with budget := n } = .next { s with budget := 0 } := step_of_halted hh
  obtain ⟨fuel, hfuel⟩ : ∃ fuel, n.toNat = fuel + 1 := ⟨n.toNat - 1, by omega⟩
  rw [burst, hfuel, burstLoop_succ hn hstep]
  exact burstLoop_of_budget_spent (Int.le_refl 0) fuel

/-- Settles O51: the rounds of the loop are enough for its budget (`burstLoop_spends`), and a halted engine's burst is
`burst_of_halted`. -/
theorem burstReturnsWithTheBudgetSpent : Obligations.BurstReturnsWithTheBudgetSpent := by
  unfold Obligations.BurstReturnsWithTheBudgetSpent
  intro n s
  obtain ⟨t, hburst, hbudget, hlatch⟩ := burstLoop_spends n.toNat { s with budget := n } (Int.self_le_toNat n)
  refine ⟨t, hburst, hbudget, hlatch, fun hh hn => ?_⟩
  exact Host.Outcome.next.inj (hburst.symm.trans (burst_of_halted hh hn))

end Sys2Proof.Machine
end

section
/-! PROOFS. The ALU family (41_alu.md R149 to R154): its encodings, and each instruction's effect as one write of its
register, or of the cell at its effective address. -/

namespace Sys2Proof.Machine

/-! ### The effect of each instruction -/

theorem exec_add (r : Reg) (m : Mode) (k : Byte) (s : State) :
    exec (.add r m k) s = .next (s.setReg r (s.reg r + resolveRead s m k)) := rfl

theorem exec_sub (r : Reg) (m : Mode) (k : Byte) (s : State) :
    exec (.sub r m k) s = .next (s.setReg r (s.reg r - resolveRead s m k)) := rfl

theorem exec_load (r : Reg) (m : Mode) (k : Byte) (s : State) :
    exec (.load r m k) s = .next (s.setReg r (resolveRead s m k)) := rfl

theorem exec_store (r : Reg) (m : Mode) (k : Byte) (s : State) :
    exec (.store r m k) s = .next (resolveWrite s m k (s.reg r)) := rfl

/-- An instruction whose effect is one write of a register leaves that value there and changes nothing else. -/
theorem exists_next_of_exec_eq_setReg {i : Instr} {s : State} {r : Reg} {v : Byte}
    (h : exec i s = .next (s.setReg r v)) : ∃ t, exec i s = .next t ∧ t.reg r = v ∧ OnlyRegister (bankReg r) s t :=
  ⟨_, h, reg_setReg_self s r v, onlyRegister_setReg s r v⟩

/-- A resolved write leaves its value at the effective address and changes nothing else (20_memory.md R66). -/
theorem resolveWrite_at_effAddr {s : State} {m : Mode} {k a : Byte} (ha : effAddr s m k = some a) (v : Byte) :
    memRead (resolveWrite s m k v) a = v ∧ OnlyCell a s (resolveWrite s m k v) := by
  rw [resolveWrite_of_effAddr ha]
  exact ⟨memRead_memWrite_self s a v, onlyCell_memWrite s a v⟩

/-- A CONSTANT write does nothing (20_memory.md R66). -/
theorem resolveWrite_constant (s : State) (k v : Byte) : resolveWrite s .constant k v = s := rfl

/-- The difference of two bytes is the integer difference modulo 256 (00_scope.md R9). -/
theorem toNat_sub_eq_emod (v w : Byte) : ((v - w).toNat : Int) = ((v.toNat : Int) - w.toNat) % 256 := by
  have hw : w.toNat < 256 := w.isLt
  rw [BitVec.toNat_sub]
  omega

/-! ### The four instructions -/

/-- Settles O25: the word is the instruction's own encoding, and the effect is one write of the register with the sum
of bytes. -/
theorem addWrapsAndChangesOnlyItsRegister : Obligations.AddWrapsAndChangesOnlyItsRegister := by
  unfold Obligations.AddWrapsAndChangesOnlyItsRegister
  intro r m k
  refine ⟨fun rest => decodeOfEncodeIsTheInstruction (.add r m k) rest rfl, fun s => ?_⟩
  obtain ⟨t, ht, hreg, honly⟩ := exists_next_of_exec_eq_setReg (exec_add r m k s)
  refine ⟨t, ht, ?_, honly⟩
  rw [hreg, BitVec.toNat_add]

/-- Settles O26: as for ADD, the byte difference read as an integer by `toNat_sub_eq_emod`. -/
theorem subWrapsAndChangesOnlyItsRegister : Obligations.SubWrapsAndChangesOnlyItsRegister := by
  unfold Obligations.SubWrapsAndChangesOnlyItsRegister
  intro r m k
  refine ⟨fun rest => decodeOfEncodeIsTheInstruction (.sub r m k) rest rfl, fun s => ?_⟩
  obtain ⟨t, ht, hreg, honly⟩ := exists_next_of_exec_eq_setReg (exec_sub r m k s)
  refine ⟨t, ht, ?_, honly⟩
  rw [hreg, toNat_sub_eq_emod]

/-- Settles O27: the effect is one write of the register with the resolved value. -/
theorem loadChangesOnlyItsRegister : Obligations.LoadChangesOnlyItsRegister := by
  unfold Obligations.LoadChangesOnlyItsRegister
  intro r m k
  exact ⟨fun rest => decodeOfEncodeIsTheInstruction (.load r m k) rest rfl,
    fun s => exists_next_of_exec_eq_setReg (exec_load r m k s)⟩

/-- Settles O28: the effect is one resolved write, which is a write at the effective address where there is one and
nothing in CONSTANT mode, the one mode without (`effAddr_eq_none`). -/
theorem storeWritesOnlyItsEffectiveAddress : Obligations.StoreWritesOnlyItsEffectiveAddress := by
  unfold Obligations.StoreWritesOnlyItsEffectiveAddress
  intro r m k
  refine ⟨fun rest => decodeOfEncodeIsTheInstruction (.store r m k) rest rfl, fun s => ?_⟩
  refine ⟨_, exec_store r m k s, fun a ha => resolveWrite_at_effAddr ha _, effAddr_eq_none, ?_⟩
  rintro rfl
  exact resolveWrite_constant s k (s.reg r)

end Sys2Proof.Machine
end

section
/-! PROOFS. The bitwise family (42_bitwise.md R160 to R163): each instruction's effect as one write of A, and the value
LNEG loads as negation modulo 256. -/

namespace Sys2Proof.Machine

/-! ### The effect of each instruction -/

theorem exec_or (m : Mode) (k : Byte) (s : State) :
    exec (.or m k) s = .next (s.setReg .a (s.reg .a ||| resolveRead s m k)) := rfl

theorem exec_and (m : Mode) (k : Byte) (s : State) :
    exec (.and m k) s = .next (s.setReg .a (s.reg .a &&& resolveRead s m k)) := rfl

theorem exec_lneg (m : Mode) (k : Byte) (s : State) :
    exec (.lneg m k) s = .next (s.setReg .a (negated (resolveRead s m k))) := rfl

/-- An instruction whose effect is one write of A, the register of the bitwise family (42_bitwise.md R160). -/
theorem exists_next_of_exec_eq_setReg_a {i : Instr} {s : State} {v : Byte} (h : exec i s = .next (s.setReg .a v)) :
    ∃ t, exec i s = .next t ∧ t.get .a = v ∧ OnlyRegister .a s t :=
  exists_next_of_exec_eq_setReg h

/-! ### OR and AND -/

/-- Settles O31: the effect is one write of A with the OR, the AND, of the two bytes, which Lean's bit vectors take bit
by bit. -/
theorem orAndAndChangeOnlyRegisterA : Obligations.OrAndAndChangeOnlyRegisterA := by
  unfold Obligations.OrAndAndChangeOnlyRegisterA
  intro m k s
  constructor
  · obtain ⟨t, ht, hvalue, honly⟩ := exists_next_of_exec_eq_setReg_a (exec_or m k s)
    refine ⟨t, ht, honly, fun j => ?_⟩
    rw [hvalue, BitVec.getLsbD_or]
    rfl
  · obtain ⟨t, ht, hvalue, honly⟩ := exists_next_of_exec_eq_setReg_a (exec_and m k s)
    refine ⟨t, ht, honly, fun j => ?_⟩
    rw [hvalue, BitVec.getLsbD_and]
    rfl

/-! ### The value LNEG loads -/

/-- The one byte whose negation a byte cannot hold. -/
theorem signed_eq_min_iff (v : Byte) : signed v = -128 ↔ v = BitVec.intMin 8 := by
  have hmin : (BitVec.intMin 8).toInt = -128 := by decide
  rw [signed, ← hmin, BitVec.toInt_inj]

/-- R163's two cases are one: -128 is its own negation modulo 256. -/
theorem negated_eq_neg (v : Byte) : negated v = -v := by
  unfold negated
  split
  next hmin => rw [(signed_eq_min_iff v).mp hmin, BitVec.neg_intMin]
  next => rw [u8, signed, BitVec.ofInt_neg, BitVec.ofInt_toInt]

theorem signed_negated (v : Byte) : signed (negated v) = if signed v = -128 then -128 else -(signed v) := by
  split
  next hmin => rw [negated, if_pos hmin, hmin]
  next hmin =>
    have hne : v ≠ BitVec.intMin 8 := fun h => hmin ((signed_eq_min_iff v).mpr h)
    rw [negated_eq_neg, signed, BitVec.toInt_neg_of_ne_intMin hne, signed]

theorem negated_negated (v : Byte) : negated (negated v) = v := by
  rw [negated_eq_neg, negated_eq_neg, BitVec.neg_neg]

/-! ### LNEG -/

/-- The MEMORY operand at address 0 is A itself, through the register overlay (20_memory.md R52, R53). -/
theorem resolveRead_memory_zero (s : State) : resolveRead s .memory 0#8 = s.get .a := by
  rw [resolveRead_of_effAddr (a := 0#8) rfl, memRead_reg (q := .a) rfl]

/-- Settles O32: the effect is one write of A with the negated operand, which is negation modulo 256
(`negated_eq_neg`); twice on A it is `negated_negated`. -/
theorem lnegLoadsTheNegatedOperandIntoA : Obligations.LnegLoadsTheNegatedOperandIntoA := by
  unfold Obligations.LnegLoadsTheNegatedOperandIntoA
  constructor
  · intro m k s
    obtain ⟨t, ht, hvalue, honly⟩ := exists_next_of_exec_eq_setReg_a (exec_lneg m k s)
    refine ⟨t, ht, ?_, ?_, honly⟩
    · rw [hvalue, negated_eq_neg, BitVec.zero_sub]
    · rw [hvalue, signed_negated]
  · intro s
    obtain ⟨t, ht, htvalue, -⟩ := exists_next_of_exec_eq_setReg_a (exec_lneg .memory 0#8 s)
    obtain ⟨u, hu, huvalue, -⟩ := exists_next_of_exec_eq_setReg_a (exec_lneg .memory 0#8 t)
    refine ⟨t, u, ht, hu, ?_⟩
    rw [huvalue, resolveRead_memory_zero, htvalue, resolveRead_memory_zero, negated_negated]

end Sys2Proof.Machine
end

section
/-! PROOFS. The jump family (43_jumps.md R170 to R177): the conditions, the encodings, the common algorithm with and
without the mark, and the steps of a subroutine call and of a failed jump. -/

namespace Sys2Proof.Machine

/-! ### The conditions (R175) -/

theorem signed_eq_zero_iff (v : Byte) : signed v = 0 ↔ v = 0#8 := by
  have hzero : (0#8 : Byte).toInt = 0 := by decide
  rw [signed, ← hzero, BitVec.toInt_inj]

/-- Bit 7 is the sign bit. -/
theorem signed_neg_iff (v : Byte) : signed v < 0 ↔ v.getLsbD 7 = true := by
  have hmsb : v.msb = v.getLsbD 7 := BitVec.msb_eq_getLsbD_last v
  rw [signed, ← hmsb, BitVec.msb_eq_toInt, decide_eq_true_iff]

theorem signed_nonneg_iff (v : Byte) : 0 ≤ signed v ↔ v.getLsbD 7 = false := by
  rw [← not_lt, signed_neg_iff, Bool.not_eq_true]

theorem signed_pos_iff (v : Byte) : 0 < signed v ↔ v.getLsbD 7 = false ∧ v ≠ 0#8 := by
  rw [← signed_nonneg_iff, ne_eq, ← signed_eq_zero_iff]
  omega

theorem holds_nzero_iff (v : Byte) : holds .nzero v = true ↔ signed v ≠ 0 := decide_eq_true_iff
theorem holds_zero_iff (v : Byte) : holds .zero v = true ↔ signed v = 0 := decide_eq_true_iff
theorem holds_neg_iff (v : Byte) : holds .neg v = true ↔ signed v < 0 := decide_eq_true_iff
theorem holds_pos_iff (v : Byte) : holds .pos v = true ↔ 0 ≤ signed v := decide_eq_true_iff
theorem holds_posNz_iff (v : Byte) : holds .posNz v = true ↔ 0 < signed v := decide_eq_true_iff

@[simp] theorem jumpTaken_unconditional (s : State) : jumpTaken s .unconditional = true := rfl

theorem jumpTaken_ifReg (s : State) (r : Reg) (c : Cond) : jumpTaken s (.ifReg r c) = holds c (s.reg r) := rfl

/-- Settles O33: each condition is a test of the signed value, which is zero for the zero byte alone and negative exactly
when bit 7 is set. -/
theorem conditionsHoldBySignAndZero : Obligations.ConditionsHoldBySignAndZero := by
  unfold Obligations.ConditionsHoldBySignAndZero
  intro v
  refine ⟨holds_nzero_iff v, (holds_nzero_iff v).trans (signed_eq_zero_iff v).not,
    holds_zero_iff v, (holds_zero_iff v).trans (signed_eq_zero_iff v),
    holds_neg_iff v, (holds_neg_iff v).trans (signed_neg_iff v),
    holds_pos_iff v, (holds_pos_iff v).trans (signed_nonneg_iff v),
    holds_posNz_iff v, (holds_posNz_iff v).trans (signed_pos_iff v), ?_, ?_, ?_⟩
  · exact ⟨condOfLow_low .nzero, condOfLow_low .zero, condOfLow_low .neg, condOfLow_low .pos, condOfLow_low .posNz⟩
  · exact ⟨rfl, rfl, rfl, rfl, rfl, rfl⟩
  · exact fun s => ⟨jumpTaken_unconditional s, jumpTaken_ifReg s⟩

/-! ### The jump opcodes (R97) -/

/-- The function, the mode and the mark of a jump opcode are those of its kind `j`, whatever it tests. -/
theorem decode_jumpKind (hi j : Fin 4) (low : Fin 5) :
    (decode (opcodeByte hi (4 + j) (3 + low))).function = ![.jpd, .jpi, .jmd, .jmi] j ∧
      (decode (opcodeByte hi (4 + j) (3 + low))).addressingMode =
        some (![.memory, .indirect, .memory, .indirect] j) ∧
      (decode (opcodeByte hi (4 + j) (3 + low))).mark = decide (2 ≤ j.val) := by
  obtain ⟨hjump, -, -⟩ := jumpBitwiseAndAluFamiliesDecode low
  rw [hjump hi j]
  exact ⟨rfl, rfl, rfl⟩

/-! ### The common algorithm (R170) -/

section Jump
variable {s : State} {t : JumpTest}

theorem jump_of_not_taken (ht : jumpTaken s t = false) (m : JumpMode) (mark : Bool) (k : Byte) :
    jump s t m mark k = s := by
  simp [jump, ht]

theorem jump_of_taken (ht : jumpTaken s t = true) (m : JumpMode) (k : Byte) :
    jump s t m false k = s.set .p (jumpTarget s m k) := by
  simp [jump, ht]

theorem jump_mark_of_taken (ht : jumpTaken s t = true) (m : JumpMode) (k : Byte) :
    jump s t m true k = (memWrite s (jumpTarget s m k) (s.get .p)).set .p (jumpTarget s m k + 1#8) := by
  simp [jump, ht]

theorem jumpAccesses_of_not_taken (ht : jumpTaken s t = false) (m : JumpMode) (mark : Bool) (k : Byte) :
    jumpAccesses s t m mark k = [] := by
  simp [jumpAccesses, ht]

/-- The target of a direct jump is read from no cell. -/
theorem jumpAccesses_direct (s : State) (t : JumpTest) (k : Byte) : jumpAccesses s t .memory false k = [] := by
  simp [jumpAccesses]

/-- The pointer cell of an indirect jump is read once, and only when the jump is taken. -/
theorem jumpAccesses_indirect (s : State) (t : JumpTest) (k : Byte) :
    jumpAccesses s t .indirect false k = if jumpTaken s t then [.read k] else [] := by
  simp [jumpAccesses]

theorem jump_p_of_taken (ht : jumpTaken s t = true) (m : JumpMode) (k : Byte) :
    (jump s t m false k).get .p = jumpTarget s m k := by
  rw [jump_of_taken ht, State.get_set_self]

/-- A jump without the mark writes P alone. -/
theorem onlyRegister_jump (s : State) (t : JumpTest) (m : JumpMode) (k : Byte) :
    OnlyRegister .p s (jump s t m false k) := by
  cases ht : jumpTaken s t with
  | false => rw [jump_of_not_taken ht]; exact onlyRegister_refl .p s
  | true => rw [jump_of_taken ht]; exact onlyRegister_set s .p _

/-- The write of the mark and the write of P are together the jump-and-mark to the cell: each of the two changes its own
cell only, and P's cell is address 3. -/
theorem markedJump_memWrite_set (s : State) (a : Byte) :
    MarkedJump a s ((memWrite s a (s.get .p)).set .p (a + 1#8)) := by
  obtain ⟨hregs, hcells, -⟩ := onlyCell_memWrite s a (s.get .p)
  have hread : ∀ b, b ≠ 3#8 →
      memRead ((memWrite s a (s.get .p)).set .p (a + 1#8)) b = memRead (memWrite s a (s.get .p)) b :=
    fun b hb => memRead_set_ne (mt regAt_eq_p.mp hb) _
  refine ⟨State.get_set_self _ .p _, fun ha => ?_, fun b hba hb => ?_, fun q hq ha => ?_, ?_⟩
  · rw [hread a ha, memRead_memWrite_self]
  · rw [hread b hb, hcells b hba]
  · rw [State.get_set_ne _ _ _ _ hq, hregs q ha]
  · simp [KeepsEngine]

theorem markedJump_jump (ht : jumpTaken s t = true) (m : JumpMode) (k : Byte) :
    MarkedJump (jumpTarget s m k) s (jump s t m true k) := by
  rw [jump_mark_of_taken ht]
  exact markedJump_memWrite_set s _

end Jump

/-! ### The effect of each instruction -/

theorem exec_jpd (t : JumpTest) (k : Byte) (s : State) :
    exec (.jpd t k) s = .next (jump s t .memory false k) := rfl

theorem exec_jpi (t : JumpTest) (k : Byte) (s : State) :
    exec (.jpi t k) s = .next (jump s t .indirect false k) := rfl

theorem exec_jmd (t : JumpTest) (k : Byte) (s : State) :
    exec (.jmd t k) s = .next (jump s t .memory true k) := rfl

theorem exec_jmi (t : JumpTest) (k : Byte) (s : State) :
    exec (.jmi t k) s = .next (jump s t .indirect true k) := rfl

/-- An instruction whose effect is a jump without the mark: taken, P is the target; not taken, nothing happens; in both
cases nothing but P changes. -/
theorem exists_next_of_exec_eq_jump {i : Instr} {s : State} {t : JumpTest} {m : JumpMode} {k : Byte}
    (h : exec i s = .next (jump s t m false k)) :
    ∃ u, exec i s = .next u ∧ (jumpTaken s t = true → u.get .p = jumpTarget s m k) ∧
      (jumpTaken s t = false → u = s) ∧ OnlyRegister .p s u :=
  ⟨_, h, fun ht => jump_p_of_taken ht m k, fun ht => jump_of_not_taken ht m false k, onlyRegister_jump s t m k⟩

/-- An instruction whose effect is a jump with the mark: taken, it is the jump-and-mark to the target; not taken, nothing
happens. -/
theorem exists_next_of_exec_eq_jump_mark {i : Instr} {s : State} {t : JumpTest} {m : JumpMode} {k : Byte}
    (h : exec i s = .next (jump s t m true k)) :
    ∃ u, exec i s = .next u ∧ (jumpTaken s t = true → MarkedJump (jumpTarget s m k) s u) ∧
      (jumpTaken s t = false → u = s) :=
  ⟨_, h, fun ht => markedJump_jump ht m k, fun ht => jump_of_not_taken ht m true k⟩

/-! ### The four instructions -/

/-- Settles O34: the word is the instruction's own encoding, the opcodes are those of kind 0, and the effect is the jump
without the mark whose target is the operand byte. -/
theorem jpdJumpsToItsOperandByte : Obligations.JpdJumpsToItsOperandByte := by
  unfold Obligations.JpdJumpsToItsOperandByte
  intro t k
  exact ⟨fun rest => decodeOfEncodeIsTheInstruction (.jpd t k) rest rfl, fun h l => decode_jumpKind h 0 l,
    fun s => ⟨jumpAccesses_direct s t k, exists_next_of_exec_eq_jump (exec_jpd t k s)⟩⟩

/-- Settles O35: as for JPD, with the opcodes of kind 1 and the byte in the pointer cell as the target. -/
theorem jpiJumpsThroughItsPointer : Obligations.JpiJumpsThroughItsPointer := by
  unfold Obligations.JpiJumpsThroughItsPointer
  intro t k
  exact ⟨fun rest => decodeOfEncodeIsTheInstruction (.jpi t k) rest rfl, fun h l => decode_jumpKind h 1 l,
    fun s => ⟨jumpAccesses_indirect s t k, exists_next_of_exec_eq_jump (exec_jpi t k s)⟩⟩

/-- Settles O36: the effect is the jump with the mark whose target is the operand byte. -/
theorem jmdMarksAndJumps : Obligations.JmdMarksAndJumps := by
  unfold Obligations.JmdMarksAndJumps
  intro t k s
  exact exists_next_of_exec_eq_jump_mark (exec_jmd t k s)

/-- Settles O37: the effect is the jump with the mark whose target is the byte the pointer cell holds before the mark. -/
theorem jmiMarksAndJumpsThroughItsPointer : Obligations.JmiMarksAndJumpsThroughItsPointer := by
  unfold Obligations.JmiMarksAndJumpsThroughItsPointer
  intro t k s
  exact exists_next_of_exec_eq_jump_mark (exec_jmi t k s)

/-! ### Steps -/

/-- The step of a two-byte instruction, from its effect on the state with P past both bytes. -/
theorem step_of_exec_two_bytes {s u : State} {i : Instr} (hh : s.halt = false) (hi : nextInstr s = some i)
    (hlength : i.length = 2) (hexec : exec i (advance s 2#8) = .next u) : step s = .next (finishStep u) := by
  rw [step_of_nextInstr hh hi, hlength, hexec, onNext_next]

/-- Settles O38: the JMD's step is the jump-and-mark to `k` from P0 + 2 (R173), so the cell holds P0 + 2; the JPI's
step puts into P the byte in the cell, which its own fetch does not change, P lying elsewhere. -/
theorem subroutineCallReturnsPastTheJump : Obligations.SubroutineCallReturnsPastTheJump := by
  unfold Obligations.SubroutineCallReturnsPastTheJump
  intro s k hk hh hcall
  obtain ⟨v, hv, hmarked, -⟩ := jmdMarksAndJumps .unconditional k (advance s 2#8)
  obtain ⟨hp, hmark, -, -, hhalt, -⟩ := hmarked (jumpTaken_unconditional _)
  have hcell : memRead (finishStep v) k = s.get .p + 2#8 := by rw [memRead_finishStep, hmark hk, advance_p]
  have hrunning : (finishStep v).halt = false := by rw [finishStep_halt, hhalt, advance_halt, hh]
  refine ⟨finishStep v, step_of_exec_two_bytes hh hcall rfl hv, hcell, by rw [finishStep_get, hp], fun hreturn => ?_⟩
  obtain ⟨w, hw, htarget, -⟩ := exists_next_of_exec_eq_jump (exec_jpi .unconditional k (advance (finishStep v) 2#8))
  refine ⟨finishStep w, step_of_exec_two_bytes hrunning hreturn rfl hw, ?_⟩
  calc (finishStep w).get .p
      _ = w.get .p := finishStep_get w .p
      _ = memRead (advance (finishStep v) 2#8) k := htarget (jumpTaken_unconditional _)
      _ = memRead (finishStep v) k := memRead_advance hk
      _ = s.get .p + 2#8 := hcell

/-- Each of the four jumps, not taken: a two-byte instruction that accesses nothing and leaves the state as it is. -/
theorem jump_not_taken_does_nothing {s : State} {t : JumpTest} {k : Byte} {i : Instr}
    (hi : i ∈ [.jpd t k, .jpi t k, .jmd t k, .jmi t k]) (ht : jumpTaken s t = false) :
    i.operandByte = some k ∧ execAccesses i s = [] ∧ exec i s = .next s := by
  simp only [List.mem_cons, List.not_mem_nil, or_false] at hi
  rcases hi with rfl | rfl | rfl | rfl
  · exact ⟨rfl, jumpAccesses_of_not_taken ht .memory false k, by rw [exec_jpd, jump_of_not_taken ht]⟩
  · exact ⟨rfl, jumpAccesses_of_not_taken ht .indirect false k, by rw [exec_jpi, jump_of_not_taken ht]⟩
  · exact ⟨rfl, jumpAccesses_of_not_taken ht .memory true k, by rw [exec_jmd, jump_of_not_taken ht]⟩
  · exact ⟨rfl, jumpAccesses_of_not_taken ht .indirect true k, by rw [exec_jmi, jump_of_not_taken ht]⟩

/-- Settles O39: the fetch does not change the register tested, so the jump does nothing
(`jump_not_taken_does_nothing`), and what is left of the step is the fetch of its two bytes, which writes P alone. -/
theorem failedConditionalJumpTouchesNothing : Obligations.FailedConditionalJumpTouchesNothing := by
  unfold Obligations.FailedConditionalJumpTouchesNothing
  intro s r c k i hh hfails hjump hi
  have hnot : jumpTaken (advance s 2#8) (.ifReg r c) = false := by rw [jumpTaken_ifReg, reg_advance, hfails]
  obtain ⟨hoperand, haccesses, hexec⟩ := jump_not_taken_does_nothing hjump hnot
  have hlength : i.length = 2 := by rw [Instr.length, hoperand]; rfl
  refine ⟨?_, finishStep (advance s 2#8), step_of_exec_two_bytes hh hi hlength hexec, ?_, fun q hq => ?_,
    fun a ha => ?_, ?_⟩
  · rw [stepAccesses_eq hh hi, hlength, haccesses, hoperand]
    rfl
  · rw [finishStep_get, advance_p]
  · rw [finishStep_get, advance_get_ne _ _ _ hq]
  · rw [memRead_finishStep, memRead_advance ha]
  · rw [finishStep_halt, advance_halt, hh]

end Sys2Proof.Machine
end

section
/-! PROOFS. The bit family (44_bit_skip_set.md R185 to R189): the tested bit as the byte divided down, the changed bit as
the only one that differs, and each instruction's effect as one shared update. -/

namespace Sys2Proof.Machine

/-! ### One bit of a byte (D12) -/

/-- Bit `n` is what is left of the byte divided by `2 ^ n`, modulo 2. -/
theorem bitOf_eq_true_iff (v : Byte) (n : Fin 8) : bitOf v n = true ↔ v.toNat / 2 ^ n.val % 2 = 1 := by
  rw [bitOf, ← BitVec.testBit_toNat, Nat.testBit_eq_decide_div_mod_eq, decide_eq_true_iff]

theorem bitOf_eq_false_iff (v : Byte) (n : Fin 8) : bitOf v n = false ↔ v.toNat / 2 ^ n.val % 2 = 0 := by
  rw [← Bool.not_eq_true, bitOf_eq_true_iff]
  exact Nat.mod_two_ne_one

/-- The mask is the power of two, whose one set bit is bit `n`. -/
theorem getLsbD_bitMask (n j : Fin 8) : (bitMask n).getLsbD j = decide (j = n) := by
  have hmask : bitMask n = BitVec.twoPow 8 n.val := rfl
  rw [hmask, BitVec.getLsbD_twoPow, decide_eq_true n.isLt, Bool.true_and]
  exact decide_eq_decide.mpr (Fin.ext_iff.symm.trans eq_comm)

theorem getLsbD_clearBit (v : Byte) (n j : Fin 8) :
    (clearBit v n).getLsbD j = if j = n then false else v.getLsbD j := by
  rw [clearBit, BitVec.getLsbD_and, BitVec.getLsbD_not, decide_eq_true j.isLt, Bool.true_and, getLsbD_bitMask]
  by_cases hj : j = n <;> simp [hj]

theorem getLsbD_setBit (v : Byte) (n j : Fin 8) :
    (setBit v n).getLsbD j = if j = n then true else v.getLsbD j := by
  rw [setBit, BitVec.getLsbD_or, getLsbD_bitMask]
  by_cases hj : j = n <;> simp [hj]

/-! ### The effect of each instruction -/

theorem exec_skp0 (n : Fin 8) (k : Byte) (s : State) : exec (.skp0 n k) s = .next (skipIf s false n k) := rfl

theorem exec_skp1 (n : Fin 8) (k : Byte) (s : State) : exec (.skp1 n k) s = .next (skipIf s true n k) := rfl

theorem exec_set0 (n : Fin 8) (k : Byte) (s : State) :
    exec (.set0 n k) s = .next (memWrite s k (clearBit (memRead s k) n)) := rfl

theorem exec_set1 (n : Fin 8) (k : Byte) (s : State) :
    exec (.set1 n k) s = .next (memWrite s k (setBit (memRead s k) n)) := rfl

/-! ### The skips -/

theorem skipIf_p (s : State) (wanted : Bool) (n : Fin 8) (k : Byte) :
    (skipIf s wanted n k).get .p = if bitOf (memRead s k) n = wanted then s.get .p + 2#8 else s.get .p := by
  rw [skipIf, apply_ite (State.get · .p), advance_p]

/-- A skip writes P alone, and only when it is taken. -/
theorem onlyRegister_skipIf (s : State) (wanted : Bool) (n : Fin 8) (k : Byte) :
    OnlyRegister .p s (skipIf s wanted n k) := by
  unfold skipIf
  split
  · exact onlyRegister_set s .p _
  · exact onlyRegister_refl .p s

/-- Settles O40: the effect is the skip on the wanted bit, and the bit is the quotient's parity. -/
theorem skipsAddTwoWhenTheBitHasTheValue : Obligations.SkipsAddTwoWhenTheBitHasTheValue := by
  unfold Obligations.SkipsAddTwoWhenTheBitHasTheValue
  intro n k s
  refine ⟨⟨_, exec_skp0 n k s, onlyRegister_skipIf s false n k, ?_⟩,
    ⟨_, exec_skp1 n k s, onlyRegister_skipIf s true n k, ?_⟩⟩
  · simp only [skipIf_p, bitOf_eq_false_iff]
  · simp only [skipIf_p, bitOf_eq_true_iff]

/-! ### The sets -/

/-- Settles O41: the effect is one write of the cell, with the byte it held changed in bit `n` alone. -/
theorem setsChangeOneBitOfOneCell : Obligations.SetsChangeOneBitOfOneCell := by
  unfold Obligations.SetsChangeOneBitOfOneCell
  intro n k s
  refine ⟨⟨_, exec_set0 n k s, onlyCell_memWrite s k _, fun j => ?_⟩,
    ⟨_, exec_set1 n k s, onlyCell_memWrite s k _, fun j => ?_⟩⟩
  · rw [memRead_memWrite_self, getLsbD_clearBit]
  · rw [memRead_memWrite_self, getLsbD_setBit]

end Sys2Proof.Machine
end


section
/-! PROOFS. The shift and rotate family (45_shift_rotate.md R195 to R199): each result bit by bit, SFTR's as a signed value
under both readings, and each instruction's effect as one write of its register. -/

namespace Sys2Proof.Machine

/-! ### The effect of each instruction -/

theorem exec_sftl (r : Reg) (n : Fin 8) (s : State) :
    exec (.sftl r n) s = .next (s.setReg r (shiftedLeft (s.reg r) n)) := rfl

theorem exec_sftr (r : Reg) (n : Fin 8) (s : State) :
    exec (.sftr r n) s = .next (s.setReg r (shiftedRight .floor (s.reg r))) := rfl

theorem exec_rotr (r : Reg) (n : Fin 8) (s : State) :
    exec (.rotr r n) s = .next (s.setReg r (rotatedRight (s.reg r) n)) := rfl

/-- The second of two writes of one register overwrites the first. -/
theorem setReg_setReg (s : State) (r : Reg) (v w : Byte) : (s.setReg r v).setReg r w = s.setReg r w := by
  cases r <;> rfl

/-! ### The rotation to the right (R199) -/

/-- A right rotation takes bit `j` from `j + n` modulo 8: the right shift where that stays below 8, the left shift by the
complement where it wraps. -/
theorem getLsbD_rotatedRight (v : Byte) (n : Fin 8) {j : Nat} (hj : j < 8) :
    (rotatedRight v n).getLsbD j = v.getLsbD ((j + n.val) % 8) := by
  simp only [rotatedRight, BitVec.getLsbD_or, BitVec.getLsbD_shiftLeft, BitVec.getLsbD_ushiftRight]
  by_cases hwrap : j + n.val < 8
  · have hbelow : j < 8 - n.val := by omega
    simp [Nat.mod_eq_of_lt hwrap, hbelow, Nat.add_comm]
  · have hhigh : v.getLsbD (n.val + j) = false := BitVec.getLsbD_of_ge _ _ (by omega)
    have habove : ¬ j < 8 - n.val := by omega
    have hindex : (j + n.val) % 8 = j - (8 - n.val) := by omega
    simp [hhigh, habove, hj, hindex]

/-- Rotations compose by adding their counts modulo 8. -/
theorem rotatedRight_rotatedRight (v : Byte) (m n : Fin 8) :
    rotatedRight (rotatedRight v m) n = rotatedRight v (m + n) := by
  refine BitVec.eq_of_getLsbD_eq fun j hj => ?_
  have hindex : ((j + n.val) % 8 + m.val) % 8 = (j + (m + n).val) % 8 := by
    rw [Fin.val_add]
    omega
  rw [getLsbD_rotatedRight _ n hj, getLsbD_rotatedRight v m (Nat.mod_lt _ (by decide)), getLsbD_rotatedRight v _ hj,
    hindex]

/-- Settles O44: the word is the instruction's own encoding, and the effect is one write of the register with the rotated
value. -/
theorem rotrRotatesRight : Obligations.RotrRotatesRight := by
  unfold Obligations.RotrRotatesRight
  intro r n
  refine ⟨fun hr hn rest => decodeOfEncodeIsTheInstruction (.rotr r n) rest (Bool.and_eq_true_iff.mpr ⟨hr, hn⟩),
    fun s => ?_⟩
  obtain ⟨t, ht, hreg, honly⟩ := exists_next_of_exec_eq_setReg (exec_rotr r n s)
  refine ⟨t, ht, fun j => ?_, honly⟩
  rw [hreg, getLsbD_rotatedRight _ n j.isLt]

/-- Settles O45: the second write overwrites the first with the twice rotated value, which is the value rotated by the
sum. -/
theorem rotatesRightAddUp : Obligations.RotatesRightAddUp := by
  unfold Obligations.RotatesRightAddUp
  intro r n₁ n₂ s
  refine ⟨_, _, exec_rotr r n₁ s, exec_rotr r n₂ _, ?_⟩
  rw [exec_rotr, setReg_setReg, reg_setReg_self, rotatedRight_rotatedRight]

/-! ### The shift to the left (R196) -/

theorem getLsbD_shiftedLeft (v : Byte) (n j : Fin 8) :
    (shiftedLeft v n).getLsbD j = if j.val < n.val then false else v.getLsbD (j.val - n.val) := by
  rw [shiftedLeft, BitVec.getLsbD_shiftLeft, decide_eq_true j.isLt, Bool.true_and]
  by_cases hj : j.val < n.val <;> simp [hj]

/-- Settles O42: the word is the instruction's own encoding, and the effect is one write of the register with the shifted
value. -/
theorem sftlMovesBitsUp : Obligations.SftlMovesBitsUp := by
  unfold Obligations.SftlMovesBitsUp
  intro r n
  refine ⟨fun hr hn rest => decodeOfEncodeIsTheInstruction (.sftl r n) rest (Bool.and_eq_true_iff.mpr ⟨hr, hn⟩),
    fun s => ?_⟩
  obtain ⟨t, ht, hreg, honly⟩ := exists_next_of_exec_eq_setReg (exec_sftl r n s)
  refine ⟨t, ht, fun j => ?_, honly⟩
  rw [hreg, getLsbD_shiftedLeft]

/-! ### The shift to the right by one place (R197) -/

/-- The sign bit is kept. -/
theorem getLsbD_shiftedRight_seven (v : Byte) : (shiftedRight .floor v).getLsbD 7 = v.getLsbD 7 := by
  have hmsb : v.msb = v.getLsbD 7 := BitVec.msb_eq_getLsbD_last v
  rw [shiftedRight, BitVec.getLsbD_sshiftRight, hmsb]
  rfl

theorem getLsbD_shiftedRight (v : Byte) (j : Fin 7) : (shiftedRight .floor v).getLsbD j = v.getLsbD (j.val + 1) := by
  have hj : 1 + j.val < 8 := by omega
  have hw : ¬ 8 ≤ j.val := by omega
  rw [shiftedRight, BitVec.getLsbD_sshiftRight, if_pos hj, decide_eq_false hw, Bool.not_false, Bool.true_and,
    Nat.add_comm]

/-- The shift halves the signed value toward minus infinity. -/
theorem signed_shiftedRight_floor (v : Byte) : signed (shiftedRight .floor v) = signed v / 2 := by
  rw [signed, shiftedRight, BitVec.toInt_sshiftRight, Int.shiftRight_eq_div_pow]
  rfl

/-- Halving toward zero gives one more than halving toward minus infinity on the odd negative integers, and the same on all
others. -/
theorem tdiv_two_eq_ite (i : Int) : i.tdiv 2 = if i < 0 ∧ i % 2 = 1 then i / 2 + 1 else i / 2 := by
  have hsign : Int.sign 2 = 1 := rfl
  rw [Int.tdiv_eq_ediv, hsign]
  split <;> split <;> omega

/-- The other reading halves it toward zero (90_conflicts.md C2): the quotient is in range, so its byte keeps it. -/
theorem signed_shiftedRight_trunc (v : Byte) : signed (shiftedRight .trunc v) = (signed v).tdiv 2 := by
  have hlow : -128 ≤ signed v := BitVec.le_toInt v
  have hhigh : signed v < 128 := BitVec.toInt_lt
  rw [shiftedRight, u8, signed, BitVec.toInt_ofInt]
  obtain ⟨hqlow, hqhigh⟩ : -128 ≤ (signed v).tdiv 2 ∧ (signed v).tdiv 2 < 128 := by
    rw [tdiv_two_eq_ite]
    split <;> omega
  exact Int.bmod_eq_of_le hqlow hqhigh

/-- Bit 0 is the parity of the signed value. -/
theorem signed_emod_two_iff (v : Byte) : signed v % 2 = 1 ↔ v.getLsbD 0 = true := by
  rw [← BitVec.testBit_toNat, Nat.testBit_zero, decide_eq_true_iff, signed, BitVec.toInt_eq_toNat_cond]
  split <;> omega

/-- The two roundings of a half differ exactly on the odd negative integers. -/
theorem ediv_two_ne_tdiv_two_iff (i : Int) : i / 2 ≠ i.tdiv 2 ↔ i < 0 ∧ i % 2 = 1 := by
  rw [tdiv_two_eq_ite]
  split <;> omega

/-- The two readings differ exactly on the odd negative values: equal bytes are equal signed values. -/
theorem shiftedRight_floor_ne_trunc_iff (v : Byte) :
    shiftedRight .floor v ≠ shiftedRight .trunc v ↔ v.getLsbD 7 = true ∧ v.getLsbD 0 = true := by
  have hsigned : shiftedRight .floor v = shiftedRight .trunc v ↔ signed v / 2 = (signed v).tdiv 2 := by
    rw [← signed_shiftedRight_floor, ← signed_shiftedRight_trunc]
    exact BitVec.toInt_inj.symm
  rw [ne_eq, hsigned, ← ne_eq, ediv_two_ne_tdiv_two_iff, signed_neg_iff, signed_emod_two_iff]

/-- Settles O43: the effect is one write of the register with the shifted value, in which the count does not occur. -/
theorem sftrShiftsOnePlaceKeepingTheSign : Obligations.SftrShiftsOnePlaceKeepingTheSign := by
  unfold Obligations.SftrShiftsOnePlaceKeepingTheSign
  refine ⟨fun r n s => ?_, shiftedRight_floor_ne_trunc_iff⟩
  have hreg := reg_setReg_self s r (shiftedRight .floor (s.reg r))
  refine ⟨_, exec_sftr r n s, ?_, fun j => ?_, ?_, onlyRegister_setReg s r _, fun n' => exec_sftr r n' s⟩
  · rw [hreg, getLsbD_shiftedRight_seven]
  · rw [hreg, getLsbD_shiftedRight]
  · rw [hreg, signed_shiftedRight_floor]

end Sys2Proof.Machine
end

section
/-! PROOFS. NOOP and HALT (46_noop_halt.md R205, R206): their opcode bytes, the step of a one-byte instruction, and what is
left of it when the instruction's own effect is nothing or the halt flag. -/

namespace Sys2Proof

/-! ### The opcode bytes (R94, R98) -/

/-- Bits 2:0 and bit 7 of a byte, `low` and the upper bit of `hi`, are what the mask `0x87` keeps. -/
theorem lowField_and_mask (b : Byte) : lowField (b &&& 0x87#8) = lowField b := by
  rw [lowField_eq, lowField_eq, BitVec.toNat_and]
  exact Nat.and_mod_two_pow (n := 3) |>.trans (Nat.and_two_pow_sub_one_of_lt_two_pow (Nat.mod_lt _ (by decide)))

theorem two_le_hiField_and_mask (b : Byte) : 2 ≤ hiField (b &&& 0x87#8) ↔ 2 ≤ hiField b := by
  have hbit : (b &&& 0x87#8).getLsbD 7 = b.getLsbD 7 := by rw [BitVec.getLsbD_and]; exact Bool.and_true _
  rwa [getLsbD_seven, getLsbD_seven, decide_eq_decide] at hbit

/-- A byte with `low = 0` decodes as it does with the other bits but bit 7 cleared (R94). -/
theorem decode_of_and_mask {b c : Byte} (hmask : b &&& 0x87#8 = c) (hc : lowField c = 0) : decode b = decode c := by
  subst hmask
  have hb : lowField b = 0 := (lowField_and_mask b).symm.trans hc
  simp only [decode_zeroOperand hb, decode_zeroOperand hc, two_le_hiField_and_mask]

/-- Both groups of NOOP: `low = 0` with bit 7 set, and the five bytes with `hi = 3` and `mid = 1` (R94, R98). -/
theorem decode_noop_groups {b : Byte} (hb : b &&& 0x87#8 = 0x80#8 ∨ b ∈ [0xCB#8, 0xCC#8, 0xCD#8, 0xCE#8, 0xCF#8]) :
    decode b = Instr.noop.descriptor := by
  have hbitwise : ∀ c ∈ [0xCB#8, 0xCC#8, 0xCD#8, 0xCE#8, 0xCF#8], 3 ≤ lowField c ∧ midField c = 1 ∧ hiField c = 3 := by
    decide
  rcases hb with hmask | hmem
  · exact decode_of_and_mask hmask rfl
  · obtain ⟨hlow, hmid, hhi⟩ := hbitwise b hmem
    exact decode_bitwiseNoop hlow hmid hhi

/-- The one group of HALT: `low = 0` with bit 7 clear (R94). -/
theorem decode_halt_group {b : Byte} (hb : b &&& 0x87#8 = 0#8) : decode b = Instr.halt.descriptor :=
  decode_of_and_mask hb rfl

/-- A byte with the descriptor of a one-byte instruction decodes to it, and the byte after it is no operand. -/
theorem decodeBytes_of_one_byte {b : Byte} {i : Instr} (hb : decode b = i.descriptor) (hi : i.operandByte = none)
    (rest : List Byte) : decodeBytes (b :: rest) = .instr i rest := by
  have hmode : (decode b).addressingMode.isSome = i.operandByte.isSome := by rw [hb, isSome_mode_descriptor]
  have hinstr : (decode b).toInstr i.operandByte = some i := by rw [hb, toInstr_descriptor]
  simpa [hi] using decodeBytes_of_toInstr hmode hinstr rest

end Sys2Proof

namespace Sys2Proof.Machine

/-! ### The effect of each instruction -/

theorem exec_noop (s : State) : exec .noop s = .next s := rfl

theorem exec_halt (s : State) : exec .halt s = .next { s with halt := true } := rfl

/-! ### Steps -/

/-- The step of a one-byte instruction, from its effect on the state with P past the byte. -/
theorem step_of_exec_one_byte {s u : State} {i : Instr} (hh : s.halt = false)
    (hopcode : decode (memRead s (s.get .p)) = i.descriptor) (hi : i.operandByte = none)
    (hexec : exec i (advance s 1#8) = .next u) : step s = .next (finishStep u) := by
  have hnext : nextInstr s = some i := by rw [nextInstr, decodeBytes_of_one_byte hopcode hi]
  have hlength : i.length = 1 := by rw [Instr.length, hi]; rfl
  rw [step_of_nextInstr hh hnext, hlength, hexec, onNext_next]

/-- The charge and the notifications of a step change the budget and the record alone. -/
theorem finishStep_with_budget_trace (s : State) : { finishStep s with budget := s.budget, trace := s.trace } = s := rfl

/-- An executed step calls each sink once, with the values after the instruction (40_engine_step.md R137). -/
theorem step_notifies_once {s t : State} (hh : s.halt = false) (hstep : step s = .next t) :
    ∃ l, t.trace = l ++ s.trace ∧ List.Perm l [.out (t.get .out), .halt t.halt] := by
  obtain ⟨-, hsteps⟩ := executedStepChargesAndNotifies
  obtain ⟨-, htrace, -⟩ := hsteps s t hh hstep
  exact ⟨[.halt t.halt, .out (t.get .out)], htrace, List.Perm.swap _ _ _⟩

/-- Settles O47: each byte has NOOP's descriptor (`decode_noop_groups`), so the step is the fetch of one byte, which
writes P alone, then the charge and the notifications. -/
theorem noopOnlyAdvances : Obligations.NoopOnlyAdvances := by
  unfold Obligations.NoopOnlyAdvances
  refine ⟨exec_noop, fun b rest hb => ⟨decodeBytes_of_one_byte (decode_noop_groups hb) rfl rest, fun s hh hread => ?_⟩⟩
  have hopcode : decode (memRead s (s.get .p)) = Instr.noop.descriptor := by rw [hread, decode_noop_groups hb]
  have hstep : step s = .next (finishStep (advance s 1#8)) := step_of_exec_one_byte hh hopcode rfl (exec_noop _)
  refine ⟨_, hstep, ?_, ?_, ?_, ?_⟩
  · rw [← advance_budget s 1#8, ← advance_trace s 1#8, finishStep_with_budget_trace]
    exact onlyRegister_set s .p _
  · rw [finishStep_get, advance_p]
  · rw [finishStep_budget, advance_budget]
  · have hout : (finishStep (advance s 1#8)).get .out = s.get .out := by
      rw [finishStep_get, advance_get_ne _ _ _ (by decide)]
    have hhalt : (finishStep (advance s 1#8)).halt = false := by rw [finishStep_halt, advance_halt, hh]
    simpa only [hout, hhalt] using step_notifies_once hh hstep

/-- `set_halt(b)` gives the flag its value and leaves the registers (60_exceptions.md R263). -/
theorem panelCall_setHalt_halt (s : State) (b : Bool) : (panelCall (.setHalt b) s).2.halt = b := rfl

theorem panelCall_setHalt_get (s : State) (b : Bool) (q : RegName) :
    (panelCall (.setHalt b) s).2.get q = s.get q := by
  rw [panelCall, setHalt, notify_get, State.get_with_halt]

/-- Settles O48: each byte has HALT's descriptor (`decode_halt_group`), so the step is the fetch of one byte, the halt
flag, the charge and the notifications; the next step is a halted one (O13), and `set_halt` leaves P. -/
theorem haltSetsTheFlagAndAdvances : Obligations.HaltSetsTheFlagAndAdvances := by
  unfold Obligations.HaltSetsTheFlagAndAdvances
  refine ⟨exec_halt, fun b rest hb => ⟨decodeBytes_of_one_byte (decode_halt_group hb) rfl rest, fun s hh hread => ?_⟩⟩
  have hopcode : decode (memRead s (s.get .p)) = Instr.halt.descriptor := by rw [hread, decode_halt_group hb]
  have hstep : step s = .next (finishStep { advance s 1#8 with halt := true }) :=
    step_of_exec_one_byte hh hopcode rfl (exec_halt _)
  generalize ht : finishStep { advance s 1#8 with halt := true } = t at hstep
  have hhalt : t.halt = true := by rw [← ht, finishStep_halt]
  have hget : ∀ q, t.get q = (advance s 1#8).get q := fun q => by rw [← ht, finishStep_get, State.get_with_halt]
  have hp : t.get .p = s.get .p + 1#8 := by rw [hget, advance_p]
  have hother : ∀ q, q ≠ .p → t.get q = s.get q := fun q hq => by rw [hget, advance_get_ne _ _ _ hq]
  have hmem : ∀ a, a ≠ 3#8 → memRead t a = memRead s a := fun a ha => by
    rw [← ht, memRead_finishStep, memRead_with_halt, memRead_advance ha]
  have hbudget : t.budget = s.budget - Config.stepCost := by rw [← ht, finishStep_budget, advance_budget]
  have hsinks : ∃ l, t.trace = l ++ s.trace ∧ List.Perm l [.out (s.get .out), .halt true] := by
    simpa only [hother .out (by decide), hhalt] using step_notifies_once hh hstep
  obtain ⟨-, u, hu, -, hregs, hbytes, hstays, -⟩ := haltedStepOnlyEmptiesTheBudget t hhalt
  exact ⟨t, hstep, hhalt, hp, hother, hmem, hbudget, hsinks, ⟨u, hu, hstays, hregs, hbytes⟩,
    panelCall_setHalt_halt t false, (panelCall_setHalt_get t false .p).trans hp⟩

end Sys2Proof.Machine
end

section
/-! PROOFS. The Disassembler (50_disassembler.md): what it answers for a register's cell and for an instruction, and the
texts of its items. -/

namespace Sys2Proof

/-- Two bytes exactly when there is an addressing mode (30_encoding.md R91). -/
theorem Descriptor.length_eq_two {d : Descriptor} : d.length = 2 ↔ d.addressingMode.isSome := by
  unfold Descriptor.length
  cases d.addressingMode <;> simp

end Sys2Proof

namespace Sys2Proof.Machine

/-! ### What the disassembler answers (R211 to R213) -/

section
variable (mn : FunctionId → String) {a : Byte} (f : Byte → Byte)

/-- A register's cell is named, never disassembled (R212). -/
theorem disassembleWith_of_regAt_some {q : RegName} (ha : regAt a = some q) :
    disassembleWith mn a f = ("REG" ++ registerText q, 1) := by
  simp only [disassembleWith, ha]

/-- Elsewhere the text is that of the decoded byte, with the next byte as operand when there is a mode, and the bytes
consumed are the length (R213). -/
theorem disassembleWith_of_regAt_none (ha : regAt a = none) :
    disassembleWith mn a f =
      (render mn (decode (f a)) ((decode (f a)).addressingMode.map fun _ => f (a + 1#8)), (decode (f a)).length) := by
  simp only [disassembleWith, ha, Descriptor.length]
  cases (decode (f a)).addressingMode <;> rfl

end

/-- The fetch moves P by the length of the decoded instruction, and changes nothing else (40_engine_step.md R132 to
R134). -/
theorem fetch_state (s : State) :
    (fetch s).2.2 = advance s (BitVec.ofNat 8 (decode (memRead s (s.get .p))).length) := by
  obtain ⟨i, -, -, hdesc, -, hoperand, hstate⟩ := fetch_spec s
  have hmode : i.operandByte.isSome = (decode (memRead s (s.get .p))).addressingMode.isSome := by
    rw [← hoperand, fetch_operand, hdesc, Option.isSome_map]
  rw [hstate, Instr.length, Descriptor.length, hmode]

/-- Settles O57: at a register's address and elsewhere the answer is that of the two lemmas above, and elsewhere its
count is what the fetch moves P by (`fetch_state`). -/
theorem disassemblerConsumesWhatTheEngineFetches : Obligations.DisassemblerConsumesWhatTheEngineFetches := by
  unfold Obligations.DisassemblerConsumesWhatTheEngineFetches
  have hconsumed : ∀ (a : Byte) (f : Byte → Byte), regAt a = none → (disassemble a f).2 = (decode (f a)).length :=
    fun a f ha => by rw [disassemble, disassembleWith_of_regAt_none _ f ha]
  refine ⟨fun a q f ha => disassembleWith_of_regAt_some _ f ha, hconsumed, fun s hp => ?_⟩
  rw [fetch_state, advance_p, hconsumed _ _ hp]

/-- Settles O58: a register's cell asks the fetcher nothing; elsewhere the byte at the address is the same for both
fetchers, and the next one is used only under a mode, where the instruction is two bytes long. -/
theorem disassemblerReadsAtMostTwoBytes : Obligations.DisassemblerReadsAtMostTwoBytes := by
  unfold Obligations.DisassemblerReadsAtMostTwoBytes
  intro mn a f g hopcode hoperand
  cases ha : regAt a with
  | some q => rw [disassembleWith_of_regAt_some mn f ha, disassembleWith_of_regAt_some mn g ha]
  | none =>
    have hfetched : ((decode (f a)).addressingMode.map fun _ => f (a + 1#8)) =
        (decode (f a)).addressingMode.map fun _ => g (a + 1#8) :=
      Option.map_congr fun m hm => hoperand (Descriptor.length_eq_two.mpr (Option.isSome_of_mem hm))
    rw [disassembleWith_of_regAt_none mn f ha, disassembleWith_of_regAt_none mn g ha, hfetched, hopcode]

/-! ### The texts (R217, R219) -/

theorem octalDigit_val (d : Fin 8) : octalDigit d.val = toString d.val := by revert d; decide

/-- The three octal digits of a byte are its three fields (30_encoding.md R90). -/
theorem octalText_eq_fields (k : Byte) :
    octalText k = octalDigit (hiField k) ++ octalDigit (midField k) ++ octalDigit (lowField k) := by
  rw [hiField_eq, midField_eq, lowField_eq, octalText]

theorem octalText_opcodeByte {h m l : Fin 8} (hh : h.val < 4) :
    octalText (opcodeByte h m l) = toString h.val ++ toString m.val ++ toString l.val := by
  obtain ⟨hhi, hmid, hlow⟩ := fields_opcodeByte hh m.isLt l.isLt
  rw [octalText_eq_fields, hhi, hmid, hlow, octalDigit_val, octalDigit_val, octalDigit_val]

/-- With an operand byte at hand, the operand's text is that of the descriptor's mode as it stands. -/
theorem descriptorOperandText_some (d : Descriptor) (k : Byte) :
    descriptorOperandText d (some k) = d.addressingMode.map fun m => operandText m k := by
  unfold descriptorOperandText
  cases d.addressingMode <;> rfl

/-- Settles O59: the symbols are the table's rows, and the operand forms hold with `NNN` the text of the byte, whose
digits are its fields (`octalText_opcodeByte`). -/
theorem conditionSymbolsAndOperandForms : Obligations.ConditionSymbolsAndOperandForms := by
  unfold Obligations.ConditionSymbolsAndOperandForms
  refine ⟨rfl, rfl, rfl, rfl, rfl, rfl, descriptorOperandText_some, fun h m l hh => ?_⟩
  exact ⟨octalText (opcodeByte h m l), octalText_opcodeByte hh, rfl, rfl, rfl, rfl, rfl⟩

end Sys2Proof.Machine
end

section
/-! PROOFS. Reset and the hazard of a STORE into P (70_reset_and_hazards.md): the nine registers after reset, the step that
follows it, and a STORE with effective address 3. -/

namespace Sys2Proof.Machine

/-! ### Reset (R280 to R282) -/

theorem reset_get (q : RegName) : State.reset.get q = 0#8 := by cases q <;> rfl

/-- Settles O49: register by register. -/
theorem resetClearsTheRegisterBankAndTheHaltFlag : Obligations.ResetClearsTheRegisterBankAndTheHaltFlag := by
  unfold Obligations.ResetClearsTheRegisterBankAndTheHaltFlag
  exact ⟨fun s => ⟨machineReset_get s, machineReset_halt s⟩, reset_get, rfl⟩

/-- After reset P is 0, the address of A, so the opcode byte of the next fetch is the 0 in A (R282). -/
theorem memRead_machineReset_p (s : State) : memRead (machineReset s) ((machineReset s).get .p) = 0#8 := by
  rw [machineReset_get, memRead_reg (q := .a) rfl, machineReset_get]

/-- Settles O50: the byte 0 is a HALT, so the step is the fetch of one byte, the halt flag, the charge and the
notifications. -/
theorem firstStepAfterResetHalts : Obligations.FirstStepAfterResetHalts := by
  unfold Obligations.FirstStepAfterResetHalts
  intro s
  have hopcode : decode (memRead (machineReset s) ((machineReset s).get .p)) = Instr.halt.descriptor := by
    rw [memRead_machineReset_p, decode_halt_group rfl]
  have hother : ∀ q, q ≠ .p → (advance (machineReset s) 1#8).get q = 0#8 := fun q hq => by
    rw [advance_get_ne _ _ _ hq, machineReset_get]
  refine ⟨_, step_of_exec_one_byte (machineReset_halt s) hopcode rfl (exec_halt _), ?_, rfl, fun q hq => ?_, rfl, rfl,
    ?_, rfl⟩
  · rw [finishStep_get, State.get_with_halt, advance_p, machineReset_get]
    rfl
  · rw [finishStep_get, State.get_with_halt, hother q hq]
  · rw [finishStep_trace, State.get_with_halt, hother .out (by decide)]
    rfl

/-! ### A STORE into P (R287) -/

/-- Settles O29: the step is the write at address 3 (`step_store`), which is P; the fetch and the write leave every other
cell. -/
theorem storeToAddressThreeJumps : Obligations.StoreToAddressThreeJumps := by
  unfold Obligations.StoreToAddressThreeJumps
  intro s r m k hh hi ha
  refine ⟨_, step_store hh hi ha, ?_, fun a hne => ?_⟩
  · rw [finishStep_get, memWrite_get, if_pos (regAt_eq_p.mpr rfl)]
  · rw [memRead_finishStep, memRead_memWrite_ne hne, memRead_advance hne]

end Sys2Proof.Machine
end

section
/-! PROOFS. The front panel (60_exceptions.md R255 to R265): the effect of each call, and the procedures that enter a byte,
set the latch and deposit bytes. -/

namespace Sys2Proof.Machine

/-! ### What the calls leave as it reads -/

/-- IN lies at address 255 alone (20_memory.md R52). -/
theorem regAt_eq_inp {a : Byte} : regAt a = some .inp ↔ a = 255#8 := by revert a; decide

/-- The latch is no part of memory (10_state.md R33). -/
@[simp] theorem memRead_with_latch (s : State) (l a : Byte) : memRead { s with latch := l } a = memRead s a :=
  memRead_congr (fun q => State.get_with_latch s q l) rfl a

/-- The second of two writes of one register overwrites the first. -/
theorem State.set_set (s : State) (q : RegName) (v w : Byte) : (s.set q v).set q w = s.set q w := by
  cases q <;> rfl

/-! ### The effect of each call -/

section
variable (s : State)

theorem panelCall_setInputBit (i : Fin 8) :
    panelCall (.setInputBit i) s = (.done, s.set .inp (setBit (s.get .inp) i)) := rfl

theorem panelCall_clearInput : panelCall .clearInput s = (.done, s.set .inp 0#8) := rfl

theorem panelCall_getInput : panelCall .getInput s = (.byte (s.get .inp), s) := rfl

theorem panelCall_setAddress : panelCall .setAddress s = (.done, { s with latch := s.get .inp }) := rfl

theorem panelCall_displayAddress : panelCall .displayAddress s = (.done, s.set .out s.latch) := rfl

theorem panelCall_readValue : panelCall .readValue s = (.done, s.set .out (memRead s s.latch)) := rfl

theorem panelCall_storeValue :
    panelCall .storeValue s = (.done, { memWrite s s.latch (s.get .inp) with latch := s.latch + 1#8 }) := rfl

theorem panelCall_setHalt (b : Bool) : panelCall (.setHalt b) s = (.done, notify { s with halt := b }) := rfl

theorem panelCall_getHalt : panelCall .getHalt s = (.flag s.halt, s) := rfl

end

/-- Settles O52: `clear_input` is a write of IN, which lies at address 255 alone; `set_address` writes the latch, which
no register and no byte of memory depends on. -/
theorem simplePanelCalls : Obligations.SimplePanelCalls := by
  unfold Obligations.SimplePanelCalls
  intro s
  refine ⟨?_, panelCall_getInput s, ?_, panelCall_getHalt s⟩
  · obtain ⟨hregs, hmem, hhalt, hlatch, hbudget, -⟩ := onlyRegister_set s .inp 0#8
    rw [panelCall_clearInput]
    exact ⟨State.get_set_self s .inp 0#8, hregs, fun a ha => hmem a (mt regAt_eq_inp.mp ha), hhalt, hlatch, hbudget⟩
  · rw [panelCall_setAddress]
    exact ⟨rfl, fun q => State.get_with_latch s q _, memRead_with_latch s _, rfl, rfl⟩

/-- Settles O53: the first three calls each write one register, IN with one bit set or OUT; `set_halt` sets the flag and
notifies. -/
theorem panelCallsThatSetABitShowOrStop : Obligations.PanelCallsThatSetABitShowOrStop := by
  unfold Obligations.PanelCallsThatSetABitShowOrStop
  intro s
  refine ⟨fun i => ?_, ?_, ?_, fun b => ?_⟩
  · rw [panelCall_setInputBit]
    refine ⟨onlyRegister_set s .inp _, fun j => ?_⟩
    rw [State.get_set_self, getLsbD_setBit, Bool.if_true_left]
  · rw [panelCall_displayAddress]
    exact ⟨State.get_set_self s .out _, onlyRegister_set s .out _⟩
  · rw [panelCall_readValue]
    exact ⟨State.get_set_self s .out _, onlyRegister_set s .out _⟩
  · refine ⟨panelCall_setHalt_halt s b, ?_, panelCall_setHalt_get s b, ?_⟩
    · rw [panelCall_setHalt, notify_trace, State.get_with_halt]
    · rw [panelCall_setHalt]
      exact ⟨rfl, rfl, rfl⟩

/-! ### `store_value` (R261) -/

section
variable (s : State)

theorem panelCall_storeValue_latch : (panelCall .storeValue s).2.latch = s.latch + 1#8 := rfl

theorem panelCall_storeValue_halt : (panelCall .storeValue s).2.halt = s.halt := memWrite_halt s s.latch (s.get .inp)

theorem memRead_panelCall_storeValue (b : Byte) :
    memRead (panelCall .storeValue s).2 b = if b = s.latch then s.get .inp else memRead s b := by
  rw [panelCall_storeValue, memRead_with_latch, memRead_memWrite]

/-- Apart from the move of the latch the call is one write of memory at the latch. -/
theorem panelCall_storeValue_with_latch :
    { (panelCall .storeValue s).2 with latch := s.latch } = memWrite s s.latch (s.get .inp) := by
  have hlatch := memWrite_latch s s.latch (s.get .inp)
  rw [panelCall_storeValue]
  generalize memWrite s s.latch (s.get .inp) = t at hlatch ⊢
  rw [← hlatch]

end

/-- Settles O54: one write of memory at the latch, whose own frame is `OnlyCell` there, and the latch's move. -/
theorem storeValueWritesAtTheLatchAndMovesOn : Obligations.StoreValueWritesAtTheLatchAndMovesOn := by
  unfold Obligations.StoreValueWritesAtTheLatchAndMovesOn
  intro s
  refine ⟨?_, panelCall_storeValue_latch s, ?_⟩
  · rw [memRead_panelCall_storeValue, if_pos rfl]
  · rw [panelCall_storeValue_with_latch]
    exact onlyCell_memWrite s s.latch (s.get .inp)

/-! ### Entering a byte (R265) -/

theorem panelCalls_cons (c : PanelCall) (cs : List PanelCall) (s : State) :
    panelCalls (c :: cs) s = panelCalls cs (panelCall c s).2 := rfl

theorem panelCalls_append (cs ds : List PanelCall) (s : State) :
    panelCalls (cs ++ ds) s = panelCalls ds (panelCalls cs s) := List.foldl_append

/-- Bits set one after another: each bit of the list, and those the byte had. -/
theorem getLsbD_foldl_setBit (is : List (Fin 8)) (v : Byte) (j : Fin 8) :
    (is.foldl setBit v).getLsbD j = (decide (j ∈ is) || v.getLsbD j) := by
  induction is generalizing v with
  | nil => simp
  | cons i is ih =>
    rw [List.foldl_cons, ih, getLsbD_setBit]
    by_cases hj : j = i <;> simp [hj]

/-- A byte is the zero byte with each bit of its own set. -/
theorem foldl_setBit_bits (v : Byte) : ((List.finRange 8).filter (bitOf v)).foldl setBit 0#8 = v := by
  refine BitVec.eq_of_getLsbD_eq fun j hj => ?_
  have hbit := getLsbD_foldl_setBit ((List.finRange 8).filter (bitOf v)) 0#8 ⟨j, hj⟩
  simpa [bitOf] using hbit

/-- Setting bits of IN one after another is one write of IN. -/
theorem panelCalls_setInputBits (is : List (Fin 8)) (s : State) :
    panelCalls (is.map .setInputBit) s = s.set .inp (is.foldl setBit (s.get .inp)) := by
  induction is generalizing s with
  | nil => exact (State.set_get s .inp).symm
  | cons i is ih =>
    rw [List.map_cons, panelCalls_cons, panelCall_setInputBit, ih, State.get_set_self, State.set_set, List.foldl_cons]

/-- Settles O55: IN is cleared, and then the byte's bits are set in it. -/
theorem enteringAByteLeavesItInIn : Obligations.EnteringAByteLeavesItInIn := by
  unfold Obligations.EnteringAByteLeavesItInIn
  intro s v
  rw [enterByteCalls, panelCalls_cons, panelCall_clearInput, panelCalls_setInputBits, State.get_set_self,
    State.set_set, foldl_setBit_bits]

/-! ### Setting the latch and depositing bytes (R265) -/

/-- The byte ends in IN and in the latch. -/
theorem panelCalls_setLatchCalls (a : Byte) (s : State) :
    panelCalls (setLatchCalls a) s = { s.set .inp a with latch := a } := by
  rw [setLatchCalls, panelCalls_append, enteringAByteLeavesItInIn]
  rfl

theorem panelCalls_depositCalls_cons (v : Byte) (vs : List Byte) (s : State) :
    panelCalls (depositCalls (v :: vs)) s =
      panelCalls (depositCalls vs) (panelCall .storeValue (s.set .inp v)).2 := by
  rw [depositCalls, panelCalls_append, enteringAByteLeavesItInIn, panelCalls_cons]

/-- The latch of the state that the deposit of a byte leaves for the rest. -/
theorem storeValue_set_inp_latch (v : Byte) (s : State) :
    (panelCall .storeValue (s.set .inp v)).2.latch = s.latch + 1#8 := rfl

/-- The address `n` cells on from the next one is `n + 1` cells on. -/
theorem add_one_add_ofNat (a : Byte) (n : Nat) : a + 1#8 + BitVec.ofNat 8 n = a + BitVec.ofNat 8 (n + 1) := by
  rw [BitVec.add_assoc, Nat.add_comm n 1, BitVec.ofNat_add]

theorem panelCalls_depositCalls_halt (vs : List Byte) (s : State) :
    (panelCalls (depositCalls vs) s).halt = s.halt := by
  induction vs generalizing s with
  | nil => rfl
  | cons v vs ih => rw [panelCalls_depositCalls_cons, ih, panelCall_storeValue_halt, State.set_halt]

/-- A deposit leaves every cell but IN's and those from the latch on. -/
theorem memRead_depositCalls_ne {s : State} {vs : List Byte} {b : Byte} (hin : regAt b ≠ some .inp)
    (hb : ∀ j < vs.length, b ≠ s.latch + BitVec.ofNat 8 j) :
    memRead (panelCalls (depositCalls vs) s) b = memRead s b := by
  induction vs generalizing s with
  | nil => rfl
  | cons v vs ih =>
    have hhead : b ≠ s.latch := BitVec.add_zero s.latch ▸ hb 0 (Nat.zero_lt_succ _)
    have htail : ∀ j < vs.length, b ≠ s.latch + 1#8 + BitVec.ofNat 8 j := fun j hj => by
      rw [add_one_add_ofNat]
      exact hb (j + 1) (Nat.succ_lt_succ hj)
    rw [panelCalls_depositCalls_cons, ih htail, memRead_panelCall_storeValue, State.set_latch, if_neg hhead,
      memRead_set_ne hin]

/-- RAM cells in a row are fewer than the addresses: a row of 256 reaches P's. -/
theorem lt_of_forall_regAt_eq_none {a : Byte} {n : Nat} (h : ∀ j < n, regAt (a + BitVec.ofNat 8 j) = none) :
    n < 256 := by
  by_contra hn
  have hp : a + BitVec.ofNat 8 (3#8 - a).toNat = 3#8 := by
    rw [BitVec.ofNat_toNat, BitVec.setWidth_eq, BitVec.add_comm, BitVec.sub_add_cancel]
  have hram := h (3#8 - a).toNat (Nat.lt_of_lt_of_le (3#8 - a).isLt (Nat.le_of_not_lt hn))
  rw [hp] at hram
  cases hram

/-- Less than once around, an address does not come back. -/
theorem ne_add_ofNat {a : Byte} {n : Nat} (hpos : 0 < n) (hn : n < 256) : a ≠ a + BitVec.ofNat 8 n := by
  intro h
  have hzero : BitVec.ofNat 8 n = 0#8 := left_eq_add.mp h
  have hmod : n % 256 = 0 := congrArg BitVec.toNat hzero
  omega

/-- Deposited in RAM from the latch on, the bytes are there in order: the first is written at the latch, which the rest,
not reaching around to it, leave. -/
theorem memRead_depositCalls {s : State} {vs : List Byte}
    (hram : ∀ j < vs.length, regAt (s.latch + BitVec.ofNat 8 j) = none) (j : Nat) (hj : j < vs.length) :
    memRead (panelCalls (depositCalls vs) s) (s.latch + BitVec.ofNat 8 j) = vs[j] := by
  induction vs generalizing s j with
  | nil => exact absurd hj (Nat.not_lt_zero j)
  | cons v vs ih =>
    rw [panelCalls_depositCalls_cons]
    cases j with
    | zero =>
      have hshort : vs.length + 1 < 256 := lt_of_forall_regAt_eq_none hram
      have hcell : regAt s.latch = none := BitVec.add_zero s.latch ▸ hram 0 hj
      have hlater : ∀ i < vs.length, s.latch ≠ s.latch + 1#8 + BitVec.ofNat 8 i := fun i hi => by
        rw [add_one_add_ofNat]
        exact ne_add_ofNat (Nat.succ_pos i) (by omega)
      rw [BitVec.add_zero, memRead_depositCalls_ne (by simp [hcell]) hlater, memRead_panelCall_storeValue,
        State.set_latch, if_pos rfl, State.get_set_self, List.getElem_cons_zero]
    | succ j =>
      rw [← add_one_add_ofNat, ← storeValue_set_inp_latch v, List.getElem_cons_succ]
      refine ih (fun i hi => ?_) j (Nat.lt_of_succ_lt_succ hj)
      rw [storeValue_set_inp_latch, add_one_add_ofNat]
      exact hram (i + 1) (Nat.succ_lt_succ hi)

/-! ### The start address (70_reset_and_hazards.md R283) -/

/-- Setting the latch to 3 and depositing `p` writes `p` into IN and into P, and leaves the latch at 4. -/
theorem panelCalls_depositStart (p : Byte) (s : State) :
    panelCalls (depositCalls [p]) (panelCalls (setLatchCalls 3#8) s) =
      { (s.set .inp p).set .p p with latch := 4#8 } := by
  rw [panelCalls_setLatchCalls, panelCalls_depositCalls_cons]
  rfl

/-- Settles O56: the bytes are in RAM after the first deposit (`memRead_depositCalls`), and the second writes IN and P
alone, neither of which is a RAM cell. -/
theorem depositedProgramIsInMemoryAndPIsSet : Obligations.DepositedProgramIsInMemoryAndPIsSet := by
  unfold Obligations.DepositedProgramIsInMemoryAndPIsSet
  intro s a p vs hram
  rw [panelCalls_append, panelCalls_append, panelCalls_append, panelCalls_depositStart]
  refine ⟨fun j hj => ?_, ?_, rfl, ?_⟩
  · have hcell : ∀ q, regAt (a + BitVec.ofNat 8 j) ≠ some q := fun q => by simp [hram j hj]
    rw [memRead_with_latch, memRead_set_ne (hcell .p), memRead_set_ne (hcell .inp), panelCalls_setLatchCalls]
    exact memRead_depositCalls (s := { s.set .inp a with latch := a }) hram j hj
  · rw [State.get_with_latch, State.get_set_self]
  · rw [State.set_halt, State.set_halt, panelCalls_depositCalls_halt, panelCalls_setLatchCalls, State.set_halt]

end Sys2Proof.Machine
end
